-- ==== Sys2Proof/Word.lean ====
section
/-! DEFINITION. The 32-bit word and the two narrowings of exact arithmetic (00_scope.md rules R8 and R9). -/

namespace Sys2Proof

/-- A register, a memory cell, `pc`, `sp`, `ir` or an instruction: XLEN is 32 (rule R6). -/
abbrev Word := BitVec 32

/-- One byte of the byte-level rendering of a cell (log 1). -/
abbrev Byte := BitVec 8

/-- `trunc_32` of a natural number (rule R9). -/
def trunc32 (n : Nat) : Word := BitVec.ofNat 32 n

/-- `trunc_32` of any integer: the non-negative residue modulo `2^32` (rule R9). -/
def trunc32Int (n : Int) : Word := BitVec.ofInt 32 n

end Sys2Proof
end

