-- ==== Sys2Proof/Config.lean ====
section
/-! DEFINITION. The implementation parameters of 00_scope.md rule R6 that a machine is created with. -/

namespace Sys2Proof

/-- The "explicit configuration passed into the CPU state constructor" (rules R6 and R210). The parameters
with one fixed value (XLEN, IMM_EXT, DIV_SIGNED and the two numberings) are built into the definitions that
use them; HOST_BYTE_ORDER is read by no rule (log 1). -/
structure Config where
  /-- `MEM_WORDS`, the memory capacity in cells. -/
  memWords : Nat
  /-- `REG_COUNT`, the number of general registers. -/
  regCount : Nat
  /-- `ZERO_REG`: the register forced to zero after every completed instruction, if any. -/
  zeroReg : Option Nat
  deriving DecidableEq, Repr

/-- The legal values of rule R6. A register count above 16 is allowed: it "adds registers no instruction can
reach" (rule R20). -/
abbrev Config.legal (c : Config) : Prop :=
  1 ≤ c.memWords ∧ c.memWords ≤ 2 ^ 32 - 1 ∧ 1 ≤ c.regCount ∧ ∀ z ∈ c.zeroReg, z < c.regCount

/-- The configuration of the spec's own test vectors (95_test_vectors.md). `REG_COUNT = 8` and
`ZERO_REG = none` are the spec's values (D3, D7); `MEM_WORDS` is open and 256 is a DESIGN CHOICE (log 2). -/
def Config.standard : Config := { memWords := 256, regCount := 8, zeroReg := none }

end Sys2Proof
end

