-- ==== Sys2Proof/Machine/State.lean ====
section
/-! DEFINITION. The machine's state (10_state.md), why a step stops, and the state after reset (rule R45). -/

namespace Sys2Proof.Machine

open Sys2Proof

/-- The four flags, "four independent booleans": Z, S, C, V (rule R30). No packed layout exists (C11). -/
structure Flags where
  /-- `Z` -/
  zero : Bool
  /-- `S` -/
  sign : Bool
  /-- `C` -/
  carry : Bool
  /-- `V` -/
  overflow : Bool
  deriving DecidableEq, Repr

/-- The run state (rule R35). -/
inductive RunState where
  | ready
  | running
  | halted
  | faulted
  deriving DecidableEq, Repr

/-- The five execution-time error kinds (60_exceptions.md rule R188). -/
inductive FaultKind where
  /-- A data access at or above `MEM_WORDS` (rule R181). -/
  | outOfBounds
  /-- A register field at or above `REG_COUNT` (rule R183). -/
  | invalidRegister
  /-- A mode field of 5 to 15 (rule R182). -/
  | invalidAddressingMode
  /-- A zero divisor (rule R186). -/
  | divisionByZero
  /-- An opcode field of 18 to 31 (rule R180). -/
  | unknownOpcode
  deriving DecidableEq, Repr

/-- The fault record's contents (10_state.md rule R36, 60_exceptions.md rule R185). -/
structure FaultRecord where
  kind : FaultKind
  /-- `fault_pc`: the `pc` register at the raise, one past the faulting instruction (D16, log 8). -/
  pc : Word
  deriving DecidableEq, Repr

/-- The bytes of the memory: pairs of a byte address and a byte. Cell `a` is the four bytes from `4 * a`
(log 1). An unlisted byte reads 0: memory is "zero-initialized" (rule R40). -/
abbrev Memory := List Host.Cell

/-- The whole state of the machine (10_state.md, opening and rule R37), with the configuration it was created
with. `REG_COUNT` is the length of `regs` (log 3). -/
structure State where
  /-- `MEM_WORDS` (00_scope.md rule R6); no step changes it. -/
  memWords : Nat
  /-- `ZERO_REG` (00_scope.md rule R6); no step changes it. -/
  zeroReg : Option Nat
  /-- The general registers `x[0] .. x[REG_COUNT - 1]` (rule R20). -/
  regs : List Word
  /-- The next fetch address, a cell index (rule R24). -/
  pc : Word
  /-- Informational only: no instruction reads or writes it (rule R27). -/
  sp : Word
  /-- The last fetched raw word (rule R28). -/
  ir : Word
  /-- Z, S, C, V (rule R30). -/
  flags : Flags
  /-- Ready, Running, Halted or Faulted (rule R35). -/
  runState : RunState
  /-- Empty until a fault (rule R36). -/
  faultRecord : Option FaultRecord
  /-- The memory (rule R40). -/
  mem : Memory
  deriving DecidableEq, Repr

/-- Why `step` has no next state. The machine's own five fault kinds are not here: taking one is a next state
(60_exceptions.md rule R184). -/
inductive Fault where
  /-- Raised by `step` in run state Halted: it "has no enabled step" (60_exceptions.md rule R194). Safe: the
  hardware does nothing there either. -/
  | runHalted
  /-- Raised by `step` in run state Faulted: it "has no enabled step" (60_exceptions.md rule R194). Safe: the
  hardware does nothing there either. -/
  | runFaulted
  deriving DecidableEq, Repr

/-- What the model declines to give a meaning. -/
inductive Refusal where
  /-- Raised by an arm of `exec` for an instruction that has no meaning yet; no arm does. Safe. -/
  | notModelled (mnemonic : String)
  /-- Raised by the host operations Program load and Run outside run state Ready
  (70_reset_and_hazards.md rule R217, D18, log 15). Safe: the model does less than a lenient core would. -/
  | hostOperationNotReady
  /-- Raised by Inspection of a range that passes `MEM_WORDS`, which the spec leaves out (rule R216, log 15).
  Safe: the model does less than a lenient core would. -/
  | inspectionPastEnd
  deriving DecidableEq, Repr

/-- A fresh CPU state of a given configuration (70_reset_and_hazards.md rule R210), every piece of state at
its value of rule R45. The zeros of `pc`, `sp`, `ir` and the flags are D14 (log 5). -/
def State.create (c : Config) : State where
  memWords := c.memWords
  zeroReg := c.zeroReg
  regs := List.replicate c.regCount 0
  pc := 0
  sp := 0
  ir := 0
  flags := { zero := false, sign := false, carry := false, overflow := false }
  runState := .ready
  faultRecord := none
  mem := []

/-- The machine right after reset, with the configuration of the spec's test vectors (log 2). -/
def State.reset : State := State.create Config.standard

end Sys2Proof.Machine
end

