-- ==== Sys2Proof/Machine/Flags.lean ====
section
/-! DEFINITION. The flag computations: 10_state.md rules R31 and R32, 41_arithmetic.md rules R120 to R125. -/

namespace Sys2Proof.Machine

open Sys2Proof

/-- `setZS(r)`: `Z <- (r = 0)`, `S <- r[31]`; `C` and `V` are kept (10_state.md rule R31, D21, log 10). -/
def Flags.setZS (fl : Flags) (r : Word) : Flags :=
  { fl with zero := decide (r = 0), sign := r.msb }

/-- `C` of an addition: the unsigned sum exceeds `2^32 - 1` (41_arithmetic.md rule R120). -/
def carryOut (a b : Word) : Bool := decide (a.toNat + b.toNat > 2 ^ 32 - 1)

/-- `V` of an addition: "operands share a sign differing from the result's sign" (41_arithmetic.md rule R120). -/
def addOverflow (a b r : Word) : Bool := a.msb == b.msb && r.msb != a.msb

/-- `C` of a subtraction: the borrow `a < b` (41_arithmetic.md rule R121, D9, log 10). -/
def borrow (a b : Word) : Bool := decide (a.toNat < b.toNat)

/-- `V` of a subtraction: the operands differ in sign and the result's sign is not the minuend's
(41_arithmetic.md rule R121). -/
def subOverflow (a b r : Word) : Bool := a.msb != b.msb && r.msb != a.msb

/-- `V` of a multiplication: the "product exceeds 32-bit unsigned range" (41_arithmetic.md rule R122). -/
def mulOverflow (a b : Word) : Bool := decide (a.toNat * b.toNat > 2 ^ 32 - 1)

end Sys2Proof.Machine
end

