-- ==== Sys2Proof/Machine/Alu.lean ====
section
/-! DEFINITION. The ALU, a pure function of the operands and the current flags (40_cycle_and_operands.md rule
R107): 41_arithmetic.md, 42_logic.md and 43_shift_rotate.md. -/

namespace Sys2Proof.Machine

open Sys2Proof

/-- What an ALU operation yields: the result and the new flags. -/
structure AluResult where
  r : Word
  flags : Flags
  deriving DecidableEq, Repr

/-- A result that writes Z and S and keeps C and V (rule R105): "left unchanged by opcodes that don't define
them". -/
def AluResult.plain (r : Word) (fl : Flags) : AluResult := { r := r, flags := fl.setZS r }

/-- Rule R120; INC is this with `b = 1` (rule R124). -/
def aluAdd (a b : Word) (fl : Flags) : AluResult :=
  let r := trunc32 (a.toNat + b.toNat)
  { r := r, flags := { fl.setZS r with carry := carryOut a b, overflow := addOverflow a b r } }

/-- Rule R121; DEC is this with `b = 1` (rule R125). -/
def aluSub (a b : Word) (fl : Flags) : AluResult :=
  let r := trunc32Int ((a.toNat : Int) - (b.toNat : Int))
  { r := r, flags := { fl.setZS r with carry := borrow a b, overflow := subOverflow a b r } }

/-- Rule R122: the unsigned product; C is kept (D10, log 10). -/
def aluMul (a b : Word) (fl : Flags) : AluResult :=
  let r := trunc32 (a.toNat * b.toNat)
  { r := r, flags := { fl.setZS r with overflow := mulOverflow a b } }

/-- Rule R123: the unsigned floor quotient (D11, log 11), DivisionByZero for a zero divisor. -/
def aluDiv (a b : Word) (fl : Flags) : Except FaultKind AluResult :=
  if b = 0 then .error .divisionByZero else .ok (.plain (trunc32 (a.toNat / b.toNat)) fl)

/-- Rule R140. -/
def aluAnd (a b : Word) (fl : Flags) : AluResult := .plain (a &&& b) fl

/-- Rule R141. -/
def aluOr (a b : Word) (fl : Flags) : AluResult := .plain (a ||| b) fl

/-- Rule R142. -/
def aluXor (a b : Word) (fl : Flags) : AluResult := .plain (a ^^^ b) fl

/-- Rule R143. -/
def aluNot (a : Word) (fl : Flags) : AluResult := .plain (~~~a) fl

/-- The shift or rotate amount: "taken modulo 32" (43_shift_rotate.md rule R154). -/
def shiftAmount (b : Word) : Nat := b.toNat % 32

/-- Rule R150: zeros enter at bit 0. -/
def shiftLeft (a : Word) (k : Nat) : Word := trunc32 (a.toNat * 2 ^ k)

/-- Rule R151: zeros enter at bit 31. -/
def shiftRight (a : Word) (k : Nat) : Word := trunc32 (a.toNat / 2 ^ k)

/-- Rule R152, with `k = 0` written apart so that nothing shifts by 32. -/
def rotateLeft (a : Word) (k : Nat) : Word :=
  if k = 0 then a else shiftLeft a k ||| shiftRight a (32 - k)

/-- Rule R153, with `k = 0` written apart so that nothing shifts by 32. -/
def rotateRight (a : Word) (k : Nat) : Word :=
  if k = 0 then a else shiftRight a k ||| shiftLeft a (32 - k)

/-- Rule R150. -/
def aluShl (a b : Word) (fl : Flags) : AluResult := .plain (shiftLeft a (shiftAmount b)) fl

/-- Rule R151. -/
def aluShr (a b : Word) (fl : Flags) : AluResult := .plain (shiftRight a (shiftAmount b)) fl

/-- Rule R152. -/
def aluRol (a b : Word) (fl : Flags) : AluResult := .plain (rotateLeft a (shiftAmount b)) fl

/-- Rule R153. -/
def aluRor (a b : Word) (fl : Flags) : AluResult := .plain (rotateRight a (shiftAmount b)) fl

end Sys2Proof.Machine
end

