-- ==== Sys2Proof/Syntax.lean ====
section
/-! DEFINITION. The instructions as decoded: 30_encoding.md rules R71, R75 to R77. -/

namespace Sys2Proof

/-- The fields of an instruction word below its opcode (rule R71). They stay raw: the decoder has no error
cases, and a register index or a mode out of range is judged at execution (rule R72). -/
structure Fields where
  dest : BitVec 4
  src1 : BitVec 4
  src2 : BitVec 4
  mode : BitVec 4
  imm : BitVec 11
  deriving DecidableEq, Repr

/-- The five defined addressing modes (rule R77). -/
inductive Mode where
  | immediate
  | registerDirect
  | registerIndirect
  | memoryDirect
  | memoryIndirect
  deriving DecidableEq, Repr

/-- The 18 instructions of rule R76, in the order of the opcode table. -/
inductive Instr where
  | load (f : Fields)
  | store (f : Fields)
  | jump (f : Fields)
  | halt (f : Fields)
  | add (f : Fields)
  | sub (f : Fields)
  | mul (f : Fields)
  | div (f : Fields)
  | inc (f : Fields)
  | dec (f : Fields)
  | and (f : Fields)
  | or (f : Fields)
  | xor (f : Fields)
  | not (f : Fields)
  | shl (f : Fields)
  | shr (f : Fields)
  | rol (f : Fields)
  | ror (f : Fields)
  deriving DecidableEq, Repr

/-- The fields every instruction carries, used or not (rules R75 and R81). -/
def Instr.fields : Instr → Fields
  | .load f | .store f | .jump f | .halt f => f
  | .add f | .sub f | .mul f | .div f | .inc f | .dec f => f
  | .and f | .or f | .xor f | .not f => f
  | .shl f | .shr f | .rol f | .ror f => f

end Sys2Proof
end

