-- ==== Sys2Proof/WellFormed.lean ====
section
/-! DEFINITION. When an instruction passes the validity checks of 40_cycle_and_operands.md rules R96 and R97. -/

namespace Sys2Proof

/-- All three register fields are below `REG_COUNT` (rule R96), whether or not the instruction uses them. -/
def Fields.registersValid (regCount : Nat) (f : Fields) : Bool :=
  decide (f.dest.toNat < regCount) && decide (f.src1.toNat < regCount) && decide (f.src2.toNat < regCount)

/-- The mode is one of the five defined ones, 0 to 4 (rule R97). -/
def Fields.modeValid (f : Fields) : Bool := decide (f.mode.toNat ≤ 4)

/-- The fields pass both checks. -/
def Fields.wellFormed (regCount : Nat) (f : Fields) : Bool := f.registersValid regCount && f.modeValid

/-- The instruction passes both checks; they are the same for every recognised opcode. -/
def Instr.wellFormed (regCount : Nat) (i : Instr) : Bool := i.fields.wellFormed regCount

end Sys2Proof
end

