-- ==== Sys2Proof/Decode.lean ====
section
/-! DEFINITION. The instruction decoder and its inverse, the encoder: 30_encoding.md rules R71 to R79. -/

namespace Sys2Proof

/-- The six slices of a word (rule R72): "No error cases". -/
structure RawInstr where
  opcode : BitVec 5
  fields : Fields
  deriving DecidableEq, Repr

/-- Why a word stands for none of the 18 instructions. -/
inductive DecodeError where
  /-- The opcode field is 18 to 31 (rule R78). -/
  | unknownOpcode (opcode : BitVec 5)
  deriving DecidableEq, Repr

/-- The decoder proper, combinational wiring: opcode 31:27, dest 26:23, src1 22:19, src2 18:15, mode 14:11,
imm 10:0 (rules R71 and R72). -/
def decodeRaw (w : Word) : RawInstr where
  opcode := w.extractLsb' 27 5
  fields :=
    { dest := w.extractLsb' 23 4
      src1 := w.extractLsb' 19 4
      src2 := w.extractLsb' 15 4
      mode := w.extractLsb' 11 4
      imm := w.extractLsb' 0 11 }

/-- The encoder: the six fields side by side, `opcode` highest (rule R71). That this is the sum of rule R73 is
`encodeRaw_toNat` in Laws/PerInstr.lean. -/
def encodeRaw (r : RawInstr) : Word :=
  r.opcode ++ r.fields.dest ++ r.fields.src1 ++ r.fields.src2 ++ r.fields.mode ++ r.fields.imm

/-- The opcode map of rule R76 (numbers: D1, log 9), by the opcode field's value. -/
def Instr.ofOpcode (opcode : BitVec 5) (f : Fields) : Option Instr :=
  match opcode.toNat with
  | 0 => some (.load f)
  | 1 => some (.store f)
  | 2 => some (.jump f)
  | 3 => some (.halt f)
  | 4 => some (.add f)
  | 5 => some (.sub f)
  | 6 => some (.mul f)
  | 7 => some (.div f)
  | 8 => some (.inc f)
  | 9 => some (.dec f)
  | 10 => some (.and f)
  | 11 => some (.or f)
  | 12 => some (.xor f)
  | 13 => some (.not f)
  | 14 => some (.shl f)
  | 15 => some (.shr f)
  | 16 => some (.rol f)
  | 17 => some (.ror f)
  | _ => none

/-- The opcode map of rule R76 read the other way. -/
def Instr.opcode : Instr → BitVec 5
  | .load _ => 0
  | .store _ => 1
  | .jump _ => 2
  | .halt _ => 3
  | .add _ => 4
  | .sub _ => 5
  | .mul _ => 6
  | .div _ => 7
  | .inc _ => 8
  | .dec _ => 9
  | .and _ => 10
  | .or _ => 11
  | .xor _ => 12
  | .not _ => 13
  | .shl _ => 14
  | .shr _ => 15
  | .rol _ => 16
  | .ror _ => 17

/-- The addressing mode of a mode field (rule R77; numbers: D2, log 9); none for 5 to 15 (rule R79). -/
def Mode.ofBits (m : BitVec 4) : Option Mode :=
  match m.toNat with
  | 0 => some .immediate
  | 1 => some .registerDirect
  | 2 => some .registerIndirect
  | 3 => some .memoryDirect
  | 4 => some .memoryIndirect
  | _ => none

/-- The mode field of an addressing mode (rule R77). -/
def Mode.toBits : Mode → BitVec 4
  | .immediate => 0
  | .registerDirect => 1
  | .registerIndirect => 2
  | .memoryDirect => 3
  | .memoryIndirect => 4

/-- The immediate as a 32-bit value: zero-extended, for every opcode and every mode (rule R74, D4, log 16). -/
def zext32 (imm : BitVec 11) : Word := imm.setWidth 32

/-- The instruction a word stands for. Total; an opcode of 18 to 31 is rejected by name (rule R78). -/
def decode (w : Word) : Except DecodeError Instr :=
  let r := decodeRaw w
  match Instr.ofOpcode r.opcode r.fields with
  | some i => .ok i
  | none => .error (.unknownOpcode r.opcode)

/-- The one word of an instruction (rules R70 and R73). -/
def encode (i : Instr) : Word := encodeRaw { opcode := i.opcode, fields := i.fields }

/-- The host's question: what the decoder reads from an instruction whose bits are `w`, `nbits` of them, the
rest zero. An instruction is one cell, so the cell is the word itself. -/
def decodeTableWord (nbits w : Nat) : Option Instr :=
  (decode (BitVec.ofNat 32 (w % 2 ^ nbits))).toOption

end Sys2Proof
end

