-- ==== Sys2Proof/Machine/Ops.lean ====
section
/-! DEFINITION. The named operations over memory and registers, the validity checks, taking a fault, and
completing an instruction (20_memory.md, 40_cycle_and_operands.md, 60_exceptions.md). -/

namespace Sys2Proof.Machine

open Sys2Proof

/-! ### Memory: bytes, then cells, then the bounds-checked accesses -/

/-- What a byte that is not listed reads as: memory is "zero-initialized" (10_state.md rule R40). -/
def Memory.unlisted : Byte := 0

/-- The byte at a byte address. -/
def Memory.getByte : Memory → Nat → Byte
  | [], _ => Memory.unlisted
  | c :: m, a => if c.1 = a then c.2 else Memory.getByte m a

/-- A byte put in its place among the listed ones. -/
def Memory.insertByte (a : Nat) (v : Byte) : Memory → Memory
  | [] => [(a, v)]
  | c :: m => if a < c.1 then (a, v) :: c :: m else c :: Memory.insertByte a v m

/-- The memory with one byte changed, in canonical form: a byte equal to what an unlisted one reads as is not
listed. -/
def Memory.setByte (m : Memory) (a : Nat) (v : Byte) : Memory :=
  let rest := m.filter fun c => !decide (c.1 = a)
  if v = Memory.unlisted then rest else Memory.insertByte a v rest

/-- Lane `i` of a cell's word; lane 0 holds the low bits (the model's byte order, log 1). -/
def byteLane (w : Word) (i : Nat) : Byte := w.extractLsb' (8 * i) 8

/-- The address of the first of a cell's four bytes (log 1). -/
def byteAddress (a : Nat) : Nat := 4 * a

/-- `Mem[a]` (00_scope.md rule R9). -/
def Memory.getCell (m : Memory) (a : Nat) : Word :=
  m.getByte (byteAddress a + 3) ++ m.getByte (byteAddress a + 2)
    ++ m.getByte (byteAddress a + 1) ++ m.getByte (byteAddress a)

/-- `Mem[a] <- v` (00_scope.md rule R9). -/
def Memory.setCell (m : Memory) (a : Nat) (v : Word) : Memory :=
  (((m.setByte (byteAddress a) (byteLane v 0)).setByte (byteAddress a + 1) (byteLane v 1)).setByte
    (byteAddress a + 2) (byteLane v 2)).setByte (byteAddress a + 3) (byteLane v 3)

/-- The canonical form: addresses strictly rising, no listed byte equal to what an unlisted one reads as. -/
abbrev Memory.wf (m : Memory) : Prop :=
  m.Pairwise (fun c d => c.1 < d.1) ∧ ∀ c ∈ m, c.2 ≠ Memory.unlisted

/-- `MemRead(a, 1)`: OutOfBounds when `a >= MEM_WORDS`; `a` is unbounded, so nothing wraps
(20_memory.md rules R51 and R56). -/
def State.memRead (s : State) (a : Nat) : Except FaultKind Word :=
  if s.memWords ≤ a then .error .outOfBounds else .ok (s.mem.getCell a)

/-- `MemWrite(a, 1, v)`: OutOfBounds when `a >= MEM_WORDS`, and then no cell changes (20_memory.md rule R51). -/
def State.memWrite (s : State) (a : Nat) (v : Word) : Except FaultKind State :=
  if s.memWords ≤ a then .error .outOfBounds else .ok { s with mem := s.mem.setCell a v }

/-! ### General registers -/

/-- `REG_COUNT` (10_state.md rule R20; log 3). -/
def State.regCount (s : State) : Nat := s.regs.length

/-- `x[i]`. Every index an instruction names has passed the check of rule R96; past the end this is 0, which
nothing reads. -/
def State.readReg (s : State) (i : BitVec 4) : Word := s.regs.getD i.toNat 0

/-- `x[i] <- v`. -/
def State.writeReg (s : State) (i : BitVec 4) (v : Word) : State :=
  { s with regs := s.regs.set i.toNat v }

/-- Write-back of a result with its flags, one atomic step (40_cycle_and_operands.md rules R104 and R105). -/
def State.writeBack (s : State) (dest : BitVec 4) (r : Word) (flags : Flags) : State :=
  { s.writeReg dest r with flags := flags }

/-- `pc <- target`: any 32-bit value, not checked (45_control.md rule R170). -/
def State.setPc (s : State) (target : Word) : State := { s with pc := target }

/-- `state <- Halted` (40_cycle_and_operands.md rule R90, 45_control.md rule R171). -/
def State.stop (s : State) : State := { s with runState := .halted }

/-! ### Fetch -/

/-- `ir <- Mem[pc]`, then `pc <- pc + 1` (40_cycle_and_operands.md rule R91). -/
def State.fetch (s : State) : State :=
  { s with ir := s.mem.getCell s.pc.toNat, pc := s.pc + 1 }

/-- The word stored in the cell that `pc` names: where the next cycle fetches. When `pc` is past the end of
memory, so that no cycle could fetch, `pc` is first set to 0 (log 18). -/
def State.placeAtPc (s : State) (w : Word) : State :=
  let target : Word := if s.pc.toNat < s.memWords then s.pc else 0
  { s with pc := target, mem := s.mem.setCell target.toNat w }

/-! ### Validity checks -/

/-- The checks every recognised opcode makes before anything else: the three register fields, then the mode
(40_cycle_and_operands.md rules R96 and R97; order D12, log 12). -/
def State.validate (s : State) (f : Fields) : Except FaultKind Unit :=
  if f.registersValid s.regCount = false then .error .invalidRegister
  else if f.modeValid = false then .error .invalidAddressingMode
  else .ok ()

/-! ### Taking a fault, and completing an instruction -/

/-- `raise E`: the run state becomes Faulted and the record keeps the kind and `pc`; nothing else changes, and
`pc` and `ir` keep what the fetch gave them (60_exceptions.md rules R184 and R185). There is no return
from it (rule R193). -/
def State.raise (s : State) (k : FaultKind) : State :=
  { s with runState := .faulted, faultRecord := some { kind := k, pc := s.pc } }

/-- `x[z] <- 0` when `ZERO_REG = z` (40_cycle_and_operands.md rule R106, 10_state.md rule R21; log 4). -/
def State.forceZeroReg (s : State) : State :=
  match s.zeroReg with
  | none => s
  | some z => { s with regs := s.regs.set z 0 }

/-- How every instruction ends: a completed one with the zero-register step as its last action (rule R106),
an aborted one with the fault taken on the state it started from, so that nothing it computed is written
(rule R104, 60_exceptions.md rule R184). -/
def State.settle (s : State) (r : Except FaultKind State) : Host.Outcome State Fault Refusal :=
  match r with
  | .ok t => .next t.forceZeroReg
  | .error k => .next (s.raise k)

end Sys2Proof.Machine
end

