-- ==== Sys2Proof/Machine/Operands.lean ====
section
/-! DEFINITION. The operand resolver: 40_cycle_and_operands.md rules R100 to R103. -/

namespace Sys2Proof.Machine

open Sys2Proof

/-- The operand value under each of the five modes (rule R100). The Memory-Indirect sum is unbounded, so it
does not wrap (20_memory.md rule R56, D8, log 13). -/
def State.operand (s : State) (m : Mode) (r : BitVec 4) (imm : BitVec 11) : Except FaultKind Word :=
  match m with
  | .immediate => .ok (zext32 imm)
  | .registerDirect => .ok (s.readReg r)
  | .registerIndirect => s.memRead (s.readReg r).toNat
  | .memoryDirect => s.memRead (zext32 imm).toNat
  | .memoryIndirect => s.memRead ((s.readReg r).toNat + (zext32 imm).toNat)

/-- `resolve(mode, r, imm)`, made total as rule R101 says: a bad index raises InvalidRegister in every mode, a
bad mode InvalidAddressingMode. Rules R96 and R97 have checked both before any instruction gets here. -/
def State.resolve (s : State) (mode r : BitVec 4) (imm : BitVec 11) : Except FaultKind Word :=
  if s.regCount ≤ r.toNat then .error .invalidRegister
  else
    match Mode.ofBits mode with
    | none => .error .invalidAddressingMode
    | some m => s.operand m r imm

end Sys2Proof.Machine
end

