-- ==== Sys2Proof/Machine/Execute.lean ====
section
/-! DEFINITION. What instructions of one shape share: checks, operand resolution in order, the operation,
write-back (40_cycle_and_operands.md rules R93, R98, R103 to R106). Each works on the state the fetch left. -/

namespace Sys2Proof.Machine

open Sys2Proof

/-- Two operands, `src1` then `src2`, under the one mode and the one imm (rules R102 and R103). -/
def execBinary (op : Word → Word → Flags → Except FaultKind AluResult) (f : Fields) (s : State) :
    Host.Outcome State Fault Refusal :=
  s.settle do
    s.validate f
    let a ← s.resolve f.mode f.src1 f.imm
    let b ← s.resolve f.mode f.src2 f.imm
    let res ← op a b s.flags
    return s.writeBack f.dest res.r res.flags

/-- One operand, `src1`; `src2` is checked and not resolved (rule R103). -/
def execUnary (op : Word → Flags → AluResult) (f : Fields) (s : State) :
    Host.Outcome State Fault Refusal :=
  s.settle do
    s.validate f
    let a ← s.resolve f.mode f.src1 f.imm
    let res := op a s.flags
    return s.writeBack f.dest res.r res.flags

end Sys2Proof.Machine
end

