-- ==== Sys2Proof/Machine/Arithmetic.lean ====
section
/-! DEFINITION. ADD, SUB, MUL, DIV, INC, DEC: 41_arithmetic.md rules R120 to R125. -/

namespace Sys2Proof.Machine

open Sys2Proof

/-- ADD (rule R120). -/
def execAdd (f : Fields) (s : State) : Host.Outcome State Fault Refusal :=
  execBinary (fun a b fl => .ok (aluAdd a b fl)) f s

/-- SUB (rule R121): `src1` is the minuend, `src2` the subtrahend. -/
def execSub (f : Fields) (s : State) : Host.Outcome State Fault Refusal :=
  execBinary (fun a b fl => .ok (aluSub a b fl)) f s

/-- MUL (rule R122). -/
def execMul (f : Fields) (s : State) : Host.Outcome State Fault Refusal :=
  execBinary (fun a b fl => .ok (aluMul a b fl)) f s

/-- DIV (rule R123): the zero test comes after both operands are resolved. -/
def execDiv (f : Fields) (s : State) : Host.Outcome State Fault Refusal :=
  execBinary aluDiv f s

/-- INC (rule R124): "operand + 1", with ADD's flag rules. -/
def execInc (f : Fields) (s : State) : Host.Outcome State Fault Refusal :=
  execUnary (fun a fl => aluAdd a 1 fl) f s

/-- DEC (rule R125): "operand - 1", with SUB's flag rules. -/
def execDec (f : Fields) (s : State) : Host.Outcome State Fault Refusal :=
  execUnary (fun a fl => aluSub a 1 fl) f s

end Sys2Proof.Machine
end

