-- ==== Sys2Proof/Machine/Control.lean ====
section
/-! DEFINITION. JUMP and HALT: 45_control.md rules R170 to R173. -/

namespace Sys2Proof.Machine

open Sys2Proof

/-- JUMP (rule R170): `pc <- target`, unconditional, absolute, the target not checked. -/
def execJump (f : Fields) (s : State) : Host.Outcome State Fault Refusal :=
  s.settle do
    s.validate f
    let target ← s.resolve f.mode f.src1 f.imm
    return s.setPc target

/-- HALT (rule R171): its fields are checked and then unused; no operand is resolved. -/
def execHalt (f : Fields) (s : State) : Host.Outcome State Fault Refusal :=
  s.settle do
    s.validate f
    return s.stop

end Sys2Proof.Machine
end

