-- ==== Sys2Proof/Machine/Logic.lean ====
section
/-! DEFINITION. AND, OR, XOR, NOT: 42_logic.md rules R140 to R144. -/

namespace Sys2Proof.Machine

open Sys2Proof

/-- AND (rule R140). -/
def execAnd (f : Fields) (s : State) : Host.Outcome State Fault Refusal :=
  execBinary (fun a b fl => .ok (aluAnd a b fl)) f s

/-- OR (rule R141). -/
def execOr (f : Fields) (s : State) : Host.Outcome State Fault Refusal :=
  execBinary (fun a b fl => .ok (aluOr a b fl)) f s

/-- XOR (rule R142). -/
def execXor (f : Fields) (s : State) : Host.Outcome State Fault Refusal :=
  execBinary (fun a b fl => .ok (aluXor a b fl)) f s

/-- NOT (rule R143): unary, `src2` is checked and ignored. -/
def execNot (f : Fields) (s : State) : Host.Outcome State Fault Refusal :=
  execUnary aluNot f s

end Sys2Proof.Machine
end

