-- ==== Sys2Proof/Machine/Shift.lean ====
section
/-! DEFINITION. SHL, SHR, ROL, ROR: 43_shift_rotate.md rules R150 to R154. -/

namespace Sys2Proof.Machine

open Sys2Proof

/-- SHL (rule R150): `src1` is the value, `src2` the amount. -/
def execShl (f : Fields) (s : State) : Host.Outcome State Fault Refusal :=
  execBinary (fun a b fl => .ok (aluShl a b fl)) f s

/-- SHR (rule R151). -/
def execShr (f : Fields) (s : State) : Host.Outcome State Fault Refusal :=
  execBinary (fun a b fl => .ok (aluShr a b fl)) f s

/-- ROL (rule R152). -/
def execRol (f : Fields) (s : State) : Host.Outcome State Fault Refusal :=
  execBinary (fun a b fl => .ok (aluRol a b fl)) f s

/-- ROR (rule R153). -/
def execRor (f : Fields) (s : State) : Host.Outcome State Fault Refusal :=
  execBinary (fun a b fl => .ok (aluRor a b fl)) f s

end Sys2Proof.Machine
end

