-- ==== Sys2Proof/Machine/Transfer.lean ====
section
/-! DEFINITION. LOAD and STORE: 44_data_transfer.md rules R160 to R162. -/

namespace Sys2Proof.Machine

open Sys2Proof

/-- LOAD (rule R160): the resolved value moved to `x[dest]`; Z and S are written (C4), C and V kept. -/
def execLoad (f : Fields) (s : State) : Host.Outcome State Fault Refusal :=
  execUnary AluResult.plain f s

/-- STORE (rule R161): the address is what the resolver returns for `dest`, the data is `x[src1]` read
directly; no register and no flag is written. -/
def execStore (f : Fields) (s : State) : Host.Outcome State Fault Refusal :=
  s.settle do
    s.validate f
    let addr ← s.resolve f.mode f.dest f.imm
    s.memWrite addr.toNat (s.readReg f.src1)

end Sys2Proof.Machine
end

