-- ==== Sys2Proof/Machine/Dispatch.lean ====
section
/-! DEFINITION. The "Dispatch table keyed by opcode" (40_cycle_and_operands.md rule R95): one arm an instruction,
on the state the fetch left (rule R93). -/

namespace Sys2Proof.Machine

open Sys2Proof

-- The execute part of a cycle: `s` is the state the fetch left, with `ir` loaded and `pc` one past the word
-- (rule R93, log 20).
def exec (i : Instr) (s : State) : Host.Outcome State Fault Refusal :=
  match i with
  | .load f => Sys2Proof.Machine.execLoad f s
  | .store f => Sys2Proof.Machine.execStore f s
  | .jump f => Sys2Proof.Machine.execJump f s
  | .halt f => Sys2Proof.Machine.execHalt f s
  | .add f => Sys2Proof.Machine.execAdd f s
  | .sub f => Sys2Proof.Machine.execSub f s
  | .mul f => Sys2Proof.Machine.execMul f s
  | .div f => Sys2Proof.Machine.execDiv f s
  | .inc f => Sys2Proof.Machine.execInc f s
  | .dec f => Sys2Proof.Machine.execDec f s
  | .and f => Sys2Proof.Machine.execAnd f s
  | .or f => Sys2Proof.Machine.execOr f s
  | .xor f => Sys2Proof.Machine.execXor f s
  | .not f => Sys2Proof.Machine.execNot f s
  | .shl f => Sys2Proof.Machine.execShl f s
  | .shr f => Sys2Proof.Machine.execShr f s
  | .rol f => Sys2Proof.Machine.execRol f s
  | .ror f => Sys2Proof.Machine.execRor f s

end Sys2Proof.Machine
end

