-- ==== Sys2Proof/Machine/HostOps.lean ====
section
/-! DEFINITION. The three host operations: 70_reset_and_hazards.md rules R213 to R217. -/

namespace Sys2Proof.Machine

open Sys2Proof

/-- The numbered error kinds (60_exceptions.md rule R188): no fault, an execution-time kind, or the load-time
one. -/
inductive ErrorKind where
  | none
  | execution (k : FaultKind)
  | programTooLarge
  deriving DecidableEq, Repr

/-- The codes of rule R188, "the spec's own" (D17, log 17). -/
def ErrorKind.code : ErrorKind → Nat
  | .none => 0
  | .execution .outOfBounds => 1
  | .execution .invalidRegister => 2
  | .execution .invalidAddressingMode => 3
  | .execution .divisionByZero => 4
  | .execution .unknownOpcode => 5
  | .programTooLarge => 6

/-- `fault_kind` of the fault record (10_state.md rule R36). -/
def State.faultKind (s : State) : ErrorKind :=
  match s.faultRecord with
  | none => .none
  | some r => .execution r.kind

/-- The source's boolean `running` (10_state.md rule R35). -/
def State.isRunning (s : State) : Bool := decide (s.runState = .running)

/-- `Mem[a] <- w[0]`, `Mem[a + 1] <- w[1]`, and so on. -/
def Memory.setCells (m : Memory) (a : Nat) : List Word → Memory
  | [] => m
  | w :: ws => Memory.setCells (m.setCell a w) (a + 1) ws

/-- What Program load answers. -/
inductive LoadResult where
  /-- The load succeeded. -/
  | loaded (s : State)
  /-- The image does not fit; nothing changed (60_exceptions.md rule R187). -/
  | programTooLarge
  /-- The operation is not legal in this run state (rule R217). -/
  | refused (r : Refusal)
  deriving DecidableEq, Repr

/-- Program load (rule R213): all or nothing, legal in Ready only (rule R217, D18, log 15). -/
def State.load (s : State) (words : List Word) (start : Nat) : LoadResult :=
  if s.runState ≠ .ready then .refused .hostOperationNotReady
  else if s.memWords < start + words.length then .programTooLarge
  else .loaded { s with mem := s.mem.setCells start words, pc := BitVec.ofNat 32 start }

/-- The state change of Run (rule R214): `state <- Running`. -/
def State.enterRunning (s : State) : State := { s with runState := .running }

/-- Run, up to its first cycle: legal in Ready only (rules R214 and R217, D18, log 15). -/
def State.startRun (s : State) : Except Refusal State :=
  if s.runState = .ready then .ok s.enterRunning else .error .hostOperationNotReady

/-- What Run reports when it ends: the terminal state and, on Faulted, the fault record (rule R215); nothing
while the run has not ended. -/
def State.runResult (s : State) : Option (RunState × Option FaultRecord) :=
  match s.runState with
  | .halted => some (.halted, none)
  | .faulted => some (.faulted, s.faultRecord)
  | .ready | .running => none

/-- What Inspection returns (rule R216). -/
structure Snapshot where
  regs : List Word
  flags : Flags
  pc : Word
  sp : Word
  ir : Word
  runState : RunState
  faultRecord : Option FaultRecord
  cells : List Word
  deriving DecidableEq, Repr

/-- Inspection of the `len` cells from `first` (rule R216): a read, so it changes nothing. The range is a
precondition, as the rule asks; one that passes `MEM_WORDS` is refused (log 15). -/
def State.inspect (s : State) (first len : Nat) : Except Refusal Snapshot :=
  if s.memWords < first + len then .error .inspectionPastEnd
  else .ok
    { regs := s.regs, flags := s.flags, pc := s.pc, sp := s.sp, ir := s.ir, runState := s.runState
      faultRecord := s.faultRecord
      cells := (List.range len).map fun i => s.mem.getCell (first + i) }

end Sys2Proof.Machine
end

