-- ==== Sys2Proof/Machine/Cycle.lean ====
section
/-! DEFINITION. The program-counter sequencer: 40_cycle_and_operands.md rules R90 to R95, and the transitions of
a run (70_reset_and_hazards.md rule R214, 60_exceptions.md rule R194). -/

namespace Sys2Proof.Machine

open Sys2Proof

/-- One cycle in run state Running (rule R93): the end-of-memory test, the fetch, the decode, the opcode check,
then the instruction. -/
def cycle (s : State) : Host.Outcome State Fault Refusal :=
  if s.memWords ≤ s.pc.toNat then .next s.stop
  else
    match decode s.fetch.ir with
    | .ok i => exec i s.fetch
    | .error (.unknownOpcode _) => .next (s.fetch.raise .unknownOpcode)

/-- One transition of a run: Run's own `state <- Running` in Ready (log 6), a cycle in Running, and no enabled
step in Halted and Faulted (rule R194, log 7). -/
def advance (s : State) : Host.Outcome State Fault Refusal :=
  match s.runState with
  | .ready => .next s.enterRunning
  | .running => cycle s
  | .halted => .fault .runHalted
  | .faulted => .fault .runFaulted

end Sys2Proof.Machine
end

