-- ==== Sys2Proof/Machine/Step.lean ====
section
/-! DEFINITION. One step of the machine, and the state in which the next step runs a given instruction. -/

namespace Sys2Proof.Machine

open Sys2Proof

/-- One step: a transition of the run that `Run` makes (70_reset_and_hazards.md rule R214). -/
def step (s : State) : Host.Outcome State Fault Refusal := advance s

/-- `s` about to run the instruction of `nbits` bits `w`: the word at the cell `pc` names and the run state
Running, for only a running core fetches (rule R90; log 6 and log 18). -/
def State.withFetchWord (s : State) (nbits w : Nat) : State :=
  (s.placeAtPc (BitVec.ofNat 32 (w % 2 ^ nbits))).enterRunning

end Sys2Proof.Machine
end

