-- ==== Sys2Proof/Safety.lean ====
section
/-! DEFINITION. The invariant of the machine and how runs end, in the terms the statements use. -/

namespace Sys2Proof.Machine

open Sys2Proof

/-- The configuration a state was created with (00_scope.md rule R6). -/
def State.config (s : State) : Config :=
  { memWords := s.memWords, regCount := s.regCount, zeroReg := s.zeroReg }

/-- What every state of a machine with a legal configuration satisfies. -/
structure State.Inv (s : State) : Prop where
  /-- The parameters are legal (00_scope.md rule R6). -/
  config_legal : s.config.legal
  /-- The memory is in canonical form (log 1). -/
  mem_wf : s.mem.wf
  /-- No byte past the last cell is listed: the cells are `0 .. MEM_WORDS - 1` (10_state.md rule R40). -/
  mem_bounded : ∀ c ∈ s.mem, c.1 < byteAddress s.memWords
  /-- The fault record is empty unless the run is Faulted, and then it names the current `pc`
  (10_state.md rule R36, 60_exceptions.md rule R185). -/
  record_agrees : ∀ r, s.faultRecord = some r → s.runState = .faulted ∧ r.pc = s.pc
  /-- A Faulted run has its record (60_exceptions.md rule R184). -/
  faulted_recorded : s.runState = .faulted → s.faultRecord.isSome
  /-- The zero register, where there is one, reads zero (10_state.md rule R21). -/
  zero_reg_reads_zero : ∀ z, s.zeroReg = some z → s.regs[z]? = some 0

/-- The outcome is a next state, and that state satisfies `p`. -/
def NextSatisfies (o : Host.Outcome State Fault Refusal) (p : State → Prop) : Prop :=
  ∃ t, o = .next t ∧ p t

/-- `k` steps, stopping at the first that has no next state: the machine under the host's `Run`
(70_reset_and_hazards.md rule R214). -/
def runFor : Nat → State → Host.Outcome State Fault Refusal
  | 0, s => .next s
  | k + 1, s =>
    match step s with
    | .next u => runFor k u
    | .fault r => .fault r
    | .refused r => .refused r

/-- The instruction's fields pass the checks and its one operand, `src1`'s, is `a`. -/
def State.oneOperand (s : State) (f : Fields) (a : Word) : Prop :=
  f.wellFormed s.regs.length = true ∧ s.resolve f.mode f.src1 f.imm = .ok a

/-- The instruction's fields pass the checks and its two operands are `a` and `b`. -/
def State.twoOperands (s : State) (f : Fields) (a b : Word) : Prop :=
  f.wellFormed s.regs.length = true ∧ s.resolve f.mode f.src1 f.imm = .ok a ∧
    s.resolve f.mode f.src2 f.imm = .ok b

/-- The state after a completed instruction that writes `r` to `x[dest]`: Z and S from `r`, the given C and V,
the zero register forced, everything else as before (40_cycle_and_operands.md rules R104 to R106). -/
def State.afterResult (s : State) (f : Fields) (r : Word) (carry overflow : Bool) : State :=
  State.forceZeroReg
    { s with
      regs := s.regs.set f.dest.toNat r
      flags := { zero := decide (r = 0), sign := r.getLsbD 31, carry := carry, overflow := overflow } }

/-- The state after a fault of kind `k` is taken: only the run state and the fault record change
(60_exceptions.md rules R184 and R185). -/
def State.afterFault (s : State) (k : FaultKind) : State :=
  { s with runState := .faulted, faultRecord := some { kind := k, pc := s.pc } }

/-- The two states differ at most in the flags, `sp` and `ir`, which no instruction reads
(10_state.md rules R27, R28 and R33). -/
def State.sameVisible (s s' : State) : Prop :=
  s' = { s with flags := s'.flags, sp := s'.sp, ir := s'.ir }

/-- The state the fetch leaves, at which a cycle runs the instruction (40_cycle_and_operands.md rule R91). -/
def State.fetched (s : State) : State :=
  { s with ir := s.mem.getCell s.pc.toNat, pc := s.pc + 1 }

/-- A cycle of this state fetches: it is Running and `pc` is below `MEM_WORDS`. -/
def State.fetches (s : State) : Prop := s.runState = .running ∧ s.pc.toNat < s.memWords

end Sys2Proof.Machine
end

