-- ==== Sys2Proof/Certificates/Slice0/Obligations.lean ====
section
/-! DEFINITION. The statements about the CPU_design core, for the provers. Each docstring names what of the spec it
formalises; where a clause rests on a decision the spec marks as its own (D<n>) or on a choice of the model
(log <n>), it says so. -/

open Sys2Proof Sys2Proof.Machine

/-! ### Encoding -/

/-- Decoding the word of any instruction, valid or not, gives the instruction back: no bit of the format is
dropped. The round trip is the spec's inference from its bit layout (30_encoding.md section 1). -/
def Obligations.DecodeOfEncodeIsTheInstruction : Prop :=
  ∀ i : Instr, decode (encode i) = .ok i

/-- The six slices and the encoder's sum are inverse both ways, on every word and every field tuple, and a word
that decodes is the word of its instruction. The spec's inference (30_encoding.md section 1). -/
def Obligations.EncoderInvertsDecoderOnEveryWord : Prop :=
  (∀ w : Word, encodeRaw (decodeRaw w) = w) ∧ (∀ r : RawInstr, decodeRaw (encodeRaw r) = r) ∧
    ∀ (w : Word) (i : Instr), decode w = .ok i → encode i = w

/-- Rule R72: the six fields are the slices 31:27, 26:23, 22:19, 18:15, 14:11 and 10:0, each the unsigned
integer made of its bits (rule R8), for every word. -/
def Obligations.DecoderSlicesSixFields : Prop :=
  ∀ w : Word,
    (decodeRaw w).opcode.toNat = w.toNat / 2 ^ 27 ∧
    (decodeRaw w).fields.dest.toNat = w.toNat / 2 ^ 23 % 2 ^ 4 ∧
    (decodeRaw w).fields.src1.toNat = w.toNat / 2 ^ 19 % 2 ^ 4 ∧
    (decodeRaw w).fields.src2.toNat = w.toNat / 2 ^ 15 % 2 ^ 4 ∧
    (decodeRaw w).fields.mode.toNat = w.toNat / 2 ^ 11 % 2 ^ 4 ∧
    (decodeRaw w).fields.imm.toNat = w.toNat % 2 ^ 11

/-- A few words of the spec (95_test_vectors.md parts 2 to 5) decode to what the spec reads them as, one of
each family. The opcode and mode numbers are the spec's decisions D1 and D2. -/
def Obligations.SpecWordsDecodeAsRead : Prop :=
  decode 0x00000005 = .ok (.load ⟨0, 0, 0, 0, 5⟩) ∧
  decode 0x08982000 = .ok (.store ⟨1, 3, 0, 4, 0⟩) ∧
  decode 0x10002006 = .ok (.jump ⟨0, 0, 0, 4, 6⟩) ∧
  decode 0x1B9AA7FF = .ok (.halt ⟨7, 3, 5, 4, 2047⟩) ∧
  decode 0x21008800 = .ok (.add ⟨2, 0, 1, 1, 0⟩) ∧
  decode 0x61008800 = .ok (.xor ⟨2, 0, 1, 1, 0⟩) ∧
  decode 0x89008800 = .ok (.ror ⟨2, 0, 1, 1, 0⟩)

/-- A word is rejected exactly when its opcode field is 18 to 31, and by that field. That the numbers are 0 to
17 is the spec's decision D1 (30_encoding.md sections 3 and 4). -/
def Obligations.DecoderRejectsExactlyUnknownOpcodes : Prop :=
  ∀ w : Word, (18 ≤ w.toNat / 2 ^ 27 ↔ ∃ o, decode w = .error (.unknownOpcode o)) ∧
    ∀ o, decode w = .error (.unknownOpcode o) → o.toNat = w.toNat / 2 ^ 27

/-! ### Memory and operands -/

/-- Rule R51: a read and a write fail with OutOfBounds exactly at or above the capacity. A read gives what was
last written there by a STORE or by Program load, or 0 if nothing was: a fresh state reads 0, each of the two
sets its own cells and leaves every other, and no other step changes a cell. An instruction whose operand
read, STORE's address read or STORE's write fails takes the fault OutOfBounds and changes no cell. -/
def Obligations.MemoryContract : Prop :=
  (∀ (s : State) (a : Nat) (v : Word),
    (s.memWords ≤ a → s.memRead a = .error .outOfBounds ∧ s.memWrite a v = .error .outOfBounds) ∧
    (a < s.memWords → (∃ w, s.memRead a = .ok w) ∧
      ∃ t, s.memWrite a v = .ok t ∧ t.memRead a = .ok v ∧ t = { s with mem := t.mem } ∧
        ∀ b, b ≠ a → t.memRead b = s.memRead b)) ∧
  (∀ (c : Config) (a : Nat), a < c.memWords → (State.create c).memRead a = .ok 0) ∧
  (∀ (s t : State) (ws : List Word) (start : Nat), s.load ws start = .loaded t →
    (∀ j w, ws[j]? = some w → t.memRead (start + j) = .ok w) ∧
    ∀ b, b < start ∨ start + ws.length ≤ b → t.memRead b = s.memRead b) ∧
  (∀ (f : Fields) (s : State) (addr d : Word), f.wellFormed s.regs.length = true →
    s.resolve f.mode f.dest f.imm = .ok addr → s.regs[f.src1.toNat]? = some d → addr.toNat < s.memWords →
    NextSatisfies (exec (.store f) s) fun t =>
      t.memRead addr.toNat = .ok d ∧ ∀ b, b ≠ addr.toNat → t.memRead b = s.memRead b) ∧
  (∀ s t : State, step s = .next t →
    (s.runState = .running → ∀ f, decode (s.mem.getCell s.pc.toNat) ≠ .ok (.store f)) →
    ∀ b, t.memRead b = s.memRead b) ∧
  ∀ (f : Fields) (s : State), f.wellFormed s.regs.length = true →
    let endsOutOfBounds (t : State) : Prop :=
      t.runState = .faulted ∧ (∃ r, t.faultRecord = some r ∧ r.kind = .outOfBounds) ∧
        ∀ b, t.memRead b = s.memRead b
    let readFails (r : BitVec 4) : Prop := s.resolve f.mode r f.imm = .error .outOfBounds
    (∀ i ∈ [Instr.add f, .sub f, .mul f, .div f, .and f, .or f, .xor f, .shl f, .shr f, .rol f, .ror f],
      readFails f.src1 ∨ readFails f.src2 → NextSatisfies (exec i s) endsOutOfBounds) ∧
    (∀ i ∈ [Instr.load f, .inc f, .dec f, .not f, .jump f],
      readFails f.src1 → NextSatisfies (exec i s) endsOutOfBounds) ∧
    ((readFails f.dest ∨ ∃ addr, s.resolve f.mode f.dest f.imm = .ok addr ∧ s.memWords ≤ addr.toNat) →
      NextSatisfies (exec (.store f) s) endsOutOfBounds)

/-- The operand value in each of the five modes, and OutOfBounds exactly when the address is at or above
`MEM_WORDS` (40_cycle_and_operands.md section 3). The mode numbers are decision D2, the zero extension of
`imm` is D4, and that the Memory-Indirect sum is not wrapped is D8. -/
def Obligations.ResolverGivesOperandOfEachMode : Prop :=
  ∀ (s : State) (r : BitVec 4) (imm : BitVec 11) (x : Word), s.regs[r.toNat]? = some x →
    let cell (a : Nat) : Except FaultKind Word :=
      if s.memWords ≤ a then .error .outOfBounds else .ok (s.mem.getCell a)
    s.resolve 0 r imm = .ok (BitVec.ofNat 32 imm.toNat) ∧
    s.resolve 1 r imm = .ok x ∧
    s.resolve 2 r imm = cell x.toNat ∧
    s.resolve 3 r imm = cell imm.toNat ∧
    s.resolve 4 r imm = cell (x.toNat + imm.toNat)

/-! ### The validity checks and taking a fault -/

/-- Rule R80: an instruction with any of its three register fields at or above `REG_COUNT` raises
InvalidRegister, whichever of the 18 it is and whether or not it uses the field; with 16 registers none can. -/
def Obligations.RegisterFieldPastCountFaults : Prop :=
  ∀ (i : Instr) (s : State),
    ((s.regs.length ≤ i.fields.dest.toNat ∨ s.regs.length ≤ i.fields.src1.toNat ∨
        s.regs.length ≤ i.fields.src2.toNat) →
      NextSatisfies (exec i s) fun t =>
        t.runState = .faulted ∧ ∃ r, t.faultRecord = some r ∧ r.kind = .invalidRegister) ∧
    (16 ≤ s.regs.length → s.faultRecord = none →
      NextSatisfies (exec i s) fun t => ∀ r, t.faultRecord = some r → r.kind ≠ .invalidRegister)

/-- An instruction with valid register fields and a mode of 5 to 15 raises InvalidAddressingMode, whichever of
the 18 it is, HALT included. The order of the two checks is decision D12 (40_cycle_and_operands.md section
2), the recorded `pc` decision D16. -/
def Obligations.UndefinedModeFaults : Prop :=
  ∀ (i : Instr) (s : State),
    i.fields.dest.toNat < s.regs.length → i.fields.src1.toNat < s.regs.length →
    i.fields.src2.toNat < s.regs.length → 5 ≤ i.fields.mode.toNat →
    exec i s = .next (s.afterFault .invalidAddressingMode)

/-- A Running core that fetches a word with opcode 18 to 31 raises UnknownOpcode, whatever the word's other
fields, with `ir` and `pc` as the fetch left them. The numbers are decision D1, the precedence D12, what the
fault keeps and records D13 and D16. -/
def Obligations.UnknownOpcodeFaults : Prop :=
  ∀ s : State, s.fetches → 18 ≤ (s.mem.getCell s.pc.toNat).toNat / 2 ^ 27 →
    step s = .next (s.fetched.afterFault .unknownOpcode)

/-- An operand read that fails stops a well-formed instruction with OutOfBounds, before anything is written:
`src1`'s then `src2`'s for the two-operand instructions, `src1`'s for LOAD, INC, DEC, NOT and JUMP, the
address read for STORE. The order is decision D12, what the fault keeps and records D13 and D16. -/
def Obligations.FailedOperandReadFaults : Prop :=
  ∀ (f : Fields) (s : State) (k : FaultKind), f.wellFormed s.regs.length = true →
    (∀ i ∈ [Instr.add f, .sub f, .mul f, .div f, .and f, .or f, .xor f, .shl f, .shr f, .rol f, .ror f],
      (s.resolve f.mode f.src1 f.imm = .error k ∨
        (∃ a, s.resolve f.mode f.src1 f.imm = .ok a) ∧ s.resolve f.mode f.src2 f.imm = .error k) →
      k = .outOfBounds ∧ exec i s = .next (s.afterFault .outOfBounds)) ∧
    (∀ i ∈ [Instr.load f, .inc f, .dec f, .not f, .jump f], s.resolve f.mode f.src1 f.imm = .error k →
      k = .outOfBounds ∧ exec i s = .next (s.afterFault .outOfBounds)) ∧
    (s.resolve f.mode f.dest f.imm = .error k →
      k = .outOfBounds ∧ exec (.store f) s = .next (s.afterFault .outOfBounds))

/-- Rule R104: an aborted instruction has changed nothing but the run state and the fault record, and a
completed one has written at most one general register, `x[dest]`, once (the zero-register step apart); DIV by
zero always faults with DivisionByZero, `x[dest]` unmodified. -/
def Obligations.AbortedInstructionWritesNothing : Prop :=
  ∀ (i : Instr) (s t : State), s.runState = .running → exec i s = .next t →
    (t.runState = .faulted → t = { s with runState := .faulted, faultRecord := t.faultRecord }) ∧
    (t.runState ≠ .faulted → t.faultRecord = s.faultRecord ∧
      ∃ regs, (regs = s.regs ∨ ∃ r, regs = s.regs.set i.fields.dest.toNat r) ∧
        t.regs = (State.forceZeroReg { s with regs := regs }).regs) ∧
    (∀ (f : Fields) (a : Word), i = .div f → s.twoOperands f a 0 →
      t.runState = .faulted ∧ t.faultKind = .execution .divisionByZero ∧
        t.regs[f.dest.toNat]? = s.regs[f.dest.toNat]?)

/-! ### Steps -/

/-- A Running core below the end of memory whose cell at `pc` decodes to `i` steps exactly as `i` does at the
state the fetch leaves: `ir` the word, `pc` one past it (40_cycle_and_operands.md section 1). -/
def Obligations.StepRunsDecodedInstruction : Prop :=
  ∀ (s : State) (i : Instr), s.fetches → decode (s.mem.getCell s.pc.toNat) = .ok i →
    step s = exec i s.fetched

/-- Rule R91: a cycle below the end of memory loads `ir` with the cell at `pc` and advances `pc` by one; both
stay whatever happens next, but for the new `pc` of a JUMP that completes. -/
def Obligations.FetchLoadsIrAndAdvancesPc : Prop :=
  ∀ s : State, s.fetches → s.memWords ≤ 2 ^ 32 - 1 →
    NextSatisfies (step s) fun t =>
      t.ir = s.mem.getCell s.pc.toNat ∧
      (t.runState = .faulted ∨ (∀ f, decode (s.mem.getCell s.pc.toNat) ≠ .ok (.jump f)) →
        t.pc.toNat = s.pc.toNat + 1)

/-- At or past the end of memory a Running core halts cleanly and changes nothing else: no fetch, no fault.
Where the test stands is decision D15 (40_cycle_and_operands.md section 1). -/
def Obligations.EndOfMemoryHaltsCleanly : Prop :=
  ∀ s : State, s.runState = .running → s.memWords ≤ s.pc.toNat →
    step s = .next { s with runState := .halted }

/-- THE MODEL'S CHOICE (log 6): a step of a Ready machine is the host's Run, which moves it to Running and
changes nothing else. -/
def Obligations.StepInReadyStartsRun : Prop :=
  ∀ s : State, s.runState = .ready →
    step s = .next { s with runState := .running } ∧ s.startRun = .ok { s with runState := .running }

/-- A Running core always has a next state, and it is Running, Halted, or Faulted with a record of the current
`pc`; Halted and Faulted have none. The spec's inference (60_exceptions.md section 4); that the model then
answers a named fault is its choice (log 7). -/
def Obligations.OutcomesOfAStep : Prop :=
  ∀ s : State,
    (s.runState = .running →
      NextSatisfies (step s) fun t =>
        t.runState = .running ∨ t.runState = .halted ∨
          (t.runState = .faulted ∧ ∃ r, t.faultRecord = some r ∧ r.pc = t.pc)) ∧
    (s.runState = .halted → step s = .fault .runHalted) ∧
    (s.runState = .faulted → step s = .fault .runFaulted)

/-- No instruction ever ends in a fault or a refusal of the model, and no step in a refusal
(60_exceptions.md section 4: every word at every `pc` has an outcome). -/
def Obligations.NothingIsRefused : Prop :=
  (∀ (i : Instr) (s : State), ∃ t, exec i s = .next t) ∧ ∀ (s : State) (r : Refusal), step s ≠ .refused r

/-- The run state moves only Ready to Running and Running to Running, Halted or Faulted: nothing leaves Halted or
Faulted. The state machine is the spec's inference (10_state.md section 5). -/
def Obligations.RunStateOnlyMovesForward : Prop :=
  ∀ s t : State, step s = .next t →
    (s.runState = .ready ∧ t.runState = .running) ∨
    (s.runState = .running ∧ (t.runState = .running ∨ t.runState = .halted ∨ t.runState = .faulted))

/-- Rule R36: the record is empty at first, only a fault sets it, and then the run is over; nothing clears it,
Program load and Run among them; Run reports it. -/
def Obligations.FaultRecordIsSetOnlyByAFault : Prop :=
  (∀ c : Config, (State.create c).faultRecord = none ∧ (State.create c).faultKind = .none) ∧
  (∀ s t : State, step s = .next t →
    (t.runState ≠ .faulted ∧ t.faultRecord = s.faultRecord) ∨
    (t.runState = .faulted ∧ (∃ k, t.faultRecord = some { kind := k, pc := t.pc }) ∧
      (∀ u, step t ≠ .next u) ∧ t.runResult = some (.faulted, t.faultRecord))) ∧
  ∀ s t : State, ((∃ ws start, s.load ws start = .loaded t) ∨ s.startRun = .ok t) →
    t.faultRecord = s.faultRecord

/-! ### What each instruction computes -/

/-- ADD: the sum modulo 2^32; C when the unsigned sum exceeds 2^32 - 1, V when the signed sum leaves
[-2^31, 2^31 - 1]; Z and S are decision D21 (41_arithmetic.md section 2). -/
def Obligations.AddResult : Prop :=
  ∀ (f : Fields) (s : State) (a b : Word), s.twoOperands f a b →
    exec (.add f) s = .next (s.afterResult f (a + b) (decide (2 ^ 32 ≤ a.toNat + b.toNat))
      (decide (a.toInt + b.toInt < -2 ^ 31 ∨ 2 ^ 31 ≤ a.toInt + b.toInt)))

/-- SUB: the difference modulo 2^32; C is the borrow (decision D9), V when the signed difference leaves
[-2^31, 2^31 - 1]; Z and S are decision D21 (41_arithmetic.md section 2). -/
def Obligations.SubResult : Prop :=
  ∀ (f : Fields) (s : State) (a b : Word), s.twoOperands f a b →
    exec (.sub f) s = .next (s.afterResult f (a - b) (decide (a.toNat < b.toNat))
      (decide (a.toInt - b.toInt < -2 ^ 31 ∨ 2 ^ 31 ≤ a.toInt - b.toInt)))

/-- MUL: the low 32 bits of the product; V when the unsigned product exceeds 2^32 - 1; C kept (decision D10);
Z and S are decision D21 (41_arithmetic.md section 2). -/
def Obligations.MulResult : Prop :=
  ∀ (f : Fields) (s : State) (a b : Word), s.twoOperands f a b →
    exec (.mul f) s = .next (s.afterResult f (a * b) s.flags.carry (decide (2 ^ 32 ≤ a.toNat * b.toNat)))

/-- DIV: the unsigned floor quotient (decision D11), C and V kept, for a divisor that is not 0; Z and S are
decision D21 (41_arithmetic.md section 2). -/
def Obligations.DivResult : Prop :=
  ∀ (f : Fields) (s : State) (a b : Word), s.twoOperands f a b → b ≠ 0 →
    ∃ r : Word, r.toNat = a.toNat / b.toNat ∧
      exec (.div f) s = .next (s.afterResult f r s.flags.carry s.flags.overflow)

/-- DIV by 0 always faults with DivisionByZero, after both operands are resolved, and leaves every register and
flag as it was. What the fault keeps and records is decisions D13 and D16 (41_arithmetic.md section 2). -/
def Obligations.DivByZeroFaults : Prop :=
  ∀ (f : Fields) (s : State) (a : Word), s.twoOperands f a 0 →
    exec (.div f) s = .next (s.afterFault .divisionByZero)

/-- INC: operand plus 1; C exactly for 0xFFFFFFFF, V exactly for 0x7FFFFFFF; `src2` is not resolved (decision
D12); Z and S are decision D21 (41_arithmetic.md section 2). -/
def Obligations.IncResult : Prop :=
  ∀ (f : Fields) (s : State) (a : Word), s.oneOperand f a →
    exec (.inc f) s = .next (s.afterResult f (a + 1) (decide (a = 0xFFFFFFFF)) (decide (a = 0x7FFFFFFF)))

/-- DEC: operand minus 1; C exactly for 0 (the borrow, decision D9), V exactly for 0x80000000; `src2` is not
resolved (decision D12); Z and S are decision D21 (41_arithmetic.md section 2). -/
def Obligations.DecResult : Prop :=
  ∀ (f : Fields) (s : State) (a : Word), s.oneOperand f a →
    exec (.dec f) s = .next (s.afterResult f (a - 1) (decide (a = 0)) (decide (a = 0x80000000)))

/-- AND, OR, XOR act on each bit of the two operands, NOT on each bit of the one (`src2` is not resolved); C
and V are kept; Z and S are decision D21 (42_logic.md). -/
def Obligations.LogicalResults : Prop :=
  (∀ (f : Fields) (s : State) (a b : Word), s.twoOperands f a b →
    (∃ r : Word, (∀ i, r.getLsbD i = (a.getLsbD i && b.getLsbD i)) ∧
      exec (.and f) s = .next (s.afterResult f r s.flags.carry s.flags.overflow)) ∧
    (∃ r : Word, (∀ i, r.getLsbD i = (a.getLsbD i || b.getLsbD i)) ∧
      exec (.or f) s = .next (s.afterResult f r s.flags.carry s.flags.overflow)) ∧
    (∃ r : Word, (∀ i, r.getLsbD i = (a.getLsbD i != b.getLsbD i)) ∧
      exec (.xor f) s = .next (s.afterResult f r s.flags.carry s.flags.overflow))) ∧
  ∀ (f : Fields) (s : State) (a : Word), s.oneOperand f a →
    ∃ r : Word, r.toNat = 2 ^ 32 - 1 - a.toNat ∧
      exec (.not f) s = .next (s.afterResult f r s.flags.carry s.flags.overflow)

/-- SHL and SHR: with `k` the amount modulo 32, bit `i` of the value goes to bit `i + k` (SHL) or comes from
there (SHR), zeros entering; C and V are kept. "Logical shift" is general knowledge (G3), Z and S decision
D21 (43_shift_rotate.md). -/
def Obligations.ShiftResults : Prop :=
  ∀ (f : Fields) (s : State) (a b : Word), s.twoOperands f a b →
    (∃ r : Word,
      (∀ i, i < 32 → r.getLsbD i = (decide (b.toNat % 32 ≤ i) && a.getLsbD (i - b.toNat % 32))) ∧
      exec (.shl f) s = .next (s.afterResult f r s.flags.carry s.flags.overflow)) ∧
    (∃ r : Word, (∀ i, i < 32 → r.getLsbD i = a.getLsbD (i + b.toNat % 32)) ∧
      exec (.shr f) s = .next (s.afterResult f r s.flags.carry s.flags.overflow))

/-- ROL and ROR: with `k` the low five bits of the amount, bit `i` of the value goes to bit `(i + k) mod 32`
(ROL) or `(i - k) mod 32` (ROR): no bit is lost; C and V are kept. "Circular rotate" is general knowledge
(G3), Z and S decision D21 (43_shift_rotate.md). -/
def Obligations.RotateResults : Prop :=
  ∀ (f : Fields) (s : State) (a b : Word), s.twoOperands f a b →
    (∃ r : Word, (∀ i, i < 32 → r.getLsbD ((i + b.toNat % 32) % 32) = a.getLsbD i) ∧
      exec (.rol f) s = .next (s.afterResult f r s.flags.carry s.flags.overflow)) ∧
    (∃ r : Word, (∀ i, i < 32 → r.getLsbD ((i + (32 - b.toNat % 32)) % 32) = a.getLsbD i) ∧
      exec (.ror f) s = .next (s.afterResult f r s.flags.carry s.flags.overflow))

/-- A shift or rotate of a value by an amount and by that amount plus 32 write the same `x[dest]` and the same
flags, in whatever mode each resolves its two operands, from states with the same flags and the same
zero-register setting: the amount is taken modulo 32 (43_shift_rotate.md; the source's testable property S3). -/
def Obligations.ShiftAmountIsModulo32 : Prop :=
  ∀ (f f' : Fields) (s s' : State) (a b : Word), s.twoOperands f a b → s'.twoOperands f' a (b + 32) →
    f'.dest = f.dest → s'.flags = s.flags → s'.zeroReg = s.zeroReg →
    ∀ op ∈ [Instr.shl, Instr.shr, Instr.rol, Instr.ror],
      ∃ t t', exec (op f) s = .next t ∧ exec (op f') s' = .next t' ∧ t'.flags = t.flags ∧
        t'.regs[f.dest.toNat]? = t.regs[f.dest.toNat]?

/-- LOAD: the resolved value moves to `x[dest]`; Z and S are written from it (conflict C4, decision D21), C and
V kept (44_data_transfer.md). -/
def Obligations.LoadResult : Prop :=
  ∀ (f : Fields) (s : State) (v : Word), s.oneOperand f v →
    exec (.load f) s = .next (s.afterResult f v s.flags.carry s.flags.overflow)

/-- STORE: the cell at the address the resolver gives for `dest` takes `x[src1]`, read directly; every byte
outside that cell, every register (the zero register's forcing apart) and every flag is unchanged. An address
at or above `MEM_WORDS` faults with OutOfBounds and nothing is written (what the fault keeps and records: D13
and D16; 44_data_transfer.md). -/
def Obligations.StoreResult : Prop :=
  ∀ (f : Fields) (s : State) (addr d : Word), f.wellFormed s.regs.length = true →
    s.resolve f.mode f.dest f.imm = .ok addr → s.regs[f.src1.toNat]? = some d →
    (addr.toNat < s.memWords →
      NextSatisfies (exec (.store f) s) fun t =>
        t = State.forceZeroReg { s with mem := t.mem } ∧ t.mem.getCell addr.toNat = d ∧
        ∀ b, b < byteAddress addr.toNat ∨ byteAddress addr.toNat + 4 ≤ b →
          t.mem.getByte b = s.mem.getByte b) ∧
    (s.memWords ≤ addr.toNat → exec (.store f) s = .next (s.afterFault .outOfBounds))

/-- JUMP replaces `pc` with the resolved target, any 32-bit value, and changes nothing else (the zero
register's forcing apart); a target at or above `MEM_WORDS` ends the run cleanly at the next cycle with `pc` the
target; a failed check raises InvalidRegister or InvalidAddressingMode, a failed operand read OutOfBounds, and
then `pc` keeps its value; its opcode is 2, decision D1 (45_control.md; what a fault keeps: D13). -/
def Obligations.JumpResult : Prop :=
  ∀ (f : Fields) (s : State),
    (encode (.jump f)).toNat / 2 ^ 27 = 2 ∧
    (∀ target, s.oneOperand f target →
      exec (.jump f) s = .next (State.forceZeroReg { s with pc := target }) ∧
      (s.runState = .running → s.memWords ≤ target.toNat →
        step (State.forceZeroReg { s with pc := target }) =
          .next { State.forceZeroReg { s with pc := target } with runState := .halted })) ∧
    ((∀ target, ¬ s.oneOperand f target) →
      NextSatisfies (exec (.jump f) s) fun t =>
        t.runState = .faulted ∧ t.pc = s.pc ∧ ∃ r, t.faultRecord = some r ∧
          if f.wellFormed s.regs.length = true then r.kind = .outOfBounds
          else r.kind = .invalidRegister ∨ r.kind = .invalidAddressingMode)

/-- HALT: once its fields pass the checks it ends the run and changes nothing else (the zero register's forcing
apart): no operand is resolved, so it completes whatever `x[src1]` and `imm` would address (45_control.md). -/
def Obligations.HaltResult : Prop :=
  ∀ (f : Fields) (s : State), f.wellFormed s.regs.length = true →
    exec (.halt f) s = .next (State.forceZeroReg { s with runState := .halted })

/-! ### Frames -/

/-- What the fifteen instructions that write a register leave unchanged, in any next state: every other
register (the zero register apart), `pc`, `sp`, `ir`, the configuration, every byte of memory; and, unless they
fault, the run state and the fault record (10_state.md, 40_cycle_and_operands.md section 4). -/
def Obligations.RegisterWritersFrame : Prop :=
  ∀ (f : Fields) (s t : State),
    ∀ i ∈ [Instr.load f, .add f, .sub f, .mul f, .div f, .inc f, .dec f, .and f, .or f, .xor f, .not f,
        .shl f, .shr f, .rol f, .ror f],
      exec i s = .next t →
        (∀ n, n ≠ f.dest.toNat → s.zeroReg ≠ some n → t.regs[n]? = s.regs[n]?) ∧
        t.regs.length = s.regs.length ∧ t.pc = s.pc ∧ t.sp = s.sp ∧ t.ir = s.ir ∧
        t.memWords = s.memWords ∧ t.zeroReg = s.zeroReg ∧
        (∀ b, t.mem.getByte b = s.mem.getByte b) ∧
        (t.runState ≠ .faulted → t.runState = s.runState ∧ t.faultRecord = s.faultRecord)

/-- Which flags the instructions leave unchanged, in any next state: C but for ADD, SUB, INC, DEC; V but for
those and MUL; all four for STORE, JUMP and HALT. MUL's C is decision D10, LOAD's row conflict C4, the rows of
INC and DEC conflict C5 (10_state.md section 4). -/
def Obligations.FlagsFrame : Prop :=
  ∀ (f : Fields) (s t : State),
    (∀ i ∈ [Instr.load f, .mul f, .div f, .and f, .or f, .xor f, .not f, .shl f, .shr f, .rol f, .ror f],
      exec i s = .next t → t.flags.carry = s.flags.carry) ∧
    (∀ i ∈ [Instr.load f, .div f, .and f, .or f, .xor f, .not f, .shl f, .shr f, .rol f, .ror f],
      exec i s = .next t → t.flags.overflow = s.flags.overflow) ∧
    (∀ i ∈ [Instr.store f, .jump f, .halt f], exec i s = .next t → t.flags = s.flags)

/-- What STORE, JUMP and HALT leave unchanged, in any next state: every register (the zero register apart),
every flag, `sp`, `ir`, the configuration; `pc` but for JUMP; every byte of memory but for STORE, and for STORE
every byte outside the cell at the address its resolver gives, and every byte when the resolver gives none
(44_data_transfer.md, 45_control.md). -/
def Obligations.StoreJumpHaltFrame : Prop :=
  ∀ (f : Fields) (s t : State),
    (∀ i ∈ [Instr.store f, .jump f, .halt f], exec i s = .next t →
      (∀ n, s.zeroReg ≠ some n → t.regs[n]? = s.regs[n]?) ∧ t.regs.length = s.regs.length ∧
      t.flags = s.flags ∧ t.sp = s.sp ∧ t.ir = s.ir ∧ t.memWords = s.memWords ∧ t.zeroReg = s.zeroReg) ∧
    (∀ i ∈ [Instr.store f, .halt f], exec i s = .next t → t.pc = s.pc) ∧
    (∀ i ∈ [Instr.jump f, .halt f], exec i s = .next t → ∀ b, t.mem.getByte b = s.mem.getByte b) ∧
    (exec (.store f) s = .next t →
      (∀ addr, s.resolve f.mode f.dest f.imm = .ok addr →
        ∀ b, b < byteAddress addr.toNat ∨ byteAddress addr.toNat + 4 ≤ b →
          t.mem.getByte b = s.mem.getByte b) ∧
      (∀ k, s.resolve f.mode f.dest f.imm = .error k → ∀ b, t.mem.getByte b = s.mem.getByte b))

/-- With a zero register `z`, an instruction that completes leaves `x[z] = 0`, whatever it wrote there, with the
flags of the computed result: shown for LOAD, and for every instruction the register. Decisions D7 and D24
(40_cycle_and_operands.md section 4). -/
def Obligations.ZeroRegisterIsForced : Prop :=
  ∀ (s : State) (z : Nat), s.zeroReg = some z → z < s.regs.length → s.runState = .running →
    (∀ (i : Instr) (t : State), exec i s = .next t → t.runState ≠ .faulted → t.regs[z]? = some 0) ∧
    ∀ (f : Fields) (v : Word), s.oneOperand f v → f.dest.toNat = z →
      NextSatisfies (exec (.load f) s) fun t =>
        t.regs[z]? = some 0 ∧ t.flags.zero = decide (v = 0) ∧ t.flags.sign = v.getLsbD 31

/-! ### Reset and the host's operations -/

/-- A fresh state has zero in every general register and every cell, is Ready and has no fault
(10_state.md section 7); that `pc`, `sp`, `ir` and the flags are zero is the spec's choice D14 (log 5). THE
MODEL'S CHOICE is which configuration the reset state has: 256 cells (log 2), 8 registers, the spec's default
(log 3, 00_scope.md rule R6, D3), and no zero register, the spec's setting (log 4, R6, D7). -/
def Obligations.ResetValues : Prop :=
  (∀ (c : Config), (State.create c).regs.length = c.regCount ∧ (State.create c).memWords = c.memWords ∧
    (State.create c).zeroReg = c.zeroReg ∧
    (∀ n, n < c.regCount → (State.create c).regs[n]? = some 0) ∧
    (∀ a, (State.create c).mem.getCell a = 0) ∧
    (State.create c).runState = .ready ∧ (State.create c).faultRecord = none ∧
    (State.create c).pc = 0 ∧ (State.create c).sp = 0 ∧ (State.create c).ir = 0 ∧
    (State.create c).flags = { zero := false, sign := false, carry := false, overflow := false }) ∧
  State.reset = State.create { memWords := 256, regCount := 8, zeroReg := none }

/-- Rule R187: in Ready, Program load answers ProgramTooLarge exactly when `start + len > MEM_WORDS`, and that
answer carries no state: nothing changes. The fault record never holds this kind. -/
def Obligations.ProgramTooLargeChangesNothing : Prop :=
  ∀ (s : State) (ws : List Word) (start : Nat), s.runState = .ready →
    (s.memWords < start + ws.length ↔ s.load ws start = .programTooLarge) ∧
    ∀ t : State, t.faultKind ≠ .programTooLarge

/-- Program load of an image that fits, in Ready: its words in its cells, `pc` at `start`, all else as it was,
Ready still. Repeated loads are decision D18 (70_reset_and_hazards.md section 2). -/
def Obligations.ProgramLoadCopiesTheImage : Prop :=
  ∀ (s : State) (ws : List Word) (start : Nat), s.runState = .ready → start + ws.length ≤ s.memWords →
    s.memWords ≤ 2 ^ 32 - 1 →
    ∃ t, s.load ws start = .loaded t ∧ t = { s with mem := t.mem, pc := t.pc } ∧ t.pc.toNat = start ∧
      (∀ j w, ws[j]? = some w → t.mem.getCell (start + j) = w) ∧
      ∀ b, b < byteAddress start ∨ byteAddress (start + ws.length) ≤ b →
        t.mem.getByte b = s.mem.getByte b

/-- Outside Ready the host's Program load and Run are refused; Inspection of a range in memory answers the cells
and the registers as they are, in every run state. Decision D18 (70_reset_and_hazards.md section 2); that a
range past the end is refused is the model's choice (log 15). -/
def Obligations.HostOperationsByRunState : Prop :=
  (∀ (s : State) (ws : List Word) (start : Nat), s.runState ≠ .ready →
    s.load ws start = .refused .hostOperationNotReady ∧ s.startRun = .error .hostOperationNotReady) ∧
  ∀ (s : State) (first len : Nat),
    (first + len ≤ s.memWords →
      ∃ p, s.inspect first len = .ok p ∧ p.regs = s.regs ∧ p.flags = s.flags ∧ p.pc = s.pc ∧ p.sp = s.sp ∧
        p.ir = s.ir ∧ p.runState = s.runState ∧ p.faultRecord = s.faultRecord ∧ p.cells.length = len ∧
        ∀ j, j < len → p.cells[j]? = some (s.mem.getCell (first + j))) ∧
    (s.memWords < first + len → s.inspect first len = .error .inspectionPastEnd)

/-! ### Invariants and whole-machine rules -/

/-- The invariant holds of a fresh state of every legal configuration, the reset state among them. -/
def Obligations.FreshStateSatisfiesInvariant : Prop :=
  (∀ c : Config, c.legal → (State.create c).Inv) ∧ State.reset.Inv

/-- Every step keeps the invariant: the configuration stays legal, the memory canonical and within its cells,
the fault record agrees with the run state and `pc`, the zero register reads zero. -/
def Obligations.EveryStepKeepsInvariant : Prop :=
  ∀ s t : State, s.Inv → step s = .next t → t.Inv

/-- Program load keeps the invariant. -/
def Obligations.ProgramLoadKeepsInvariant : Prop :=
  ∀ (s t : State) (ws : List Word) (start : Nat), s.Inv → s.load ws start = .loaded t → t.Inv

/-- No step ever changes `sp`, `MEM_WORDS`, `REG_COUNT` or `ZERO_REG`, and no run of any length does
(10_state.md section 3, the spec's inference; 00_scope.md section 4). -/
def Obligations.RunsKeepSpAndConfiguration : Prop :=
  ∀ (k : Nat) (s t : State), runFor k s = .next t →
    t.sp = s.sp ∧ t.config = s.config

/-- Memory changes only by a STORE: a step whose cell at `pc` decodes to no STORE leaves every byte as it was
(44_data_transfer.md, the spec's inference). -/
def Obligations.OnlyStoreChangesMemory : Prop :=
  ∀ s t : State, step s = .next t → (∀ f, decode (s.mem.getCell s.pc.toNat) ≠ .ok (.store f)) →
    ∀ b, t.mem.getByte b = s.mem.getByte b

/-- No run of any length depends on the flags, `sp` or `ir`: from two states that differ only there, runs of
the same length end in states that differ only there (10_state.md sections 3 and 4, the spec's inference). -/
def Obligations.RunsIgnoreFlagsSpAndIr : Prop :=
  ∀ (k : Nat) (s s' t : State), s.sameVisible s' → runFor k s = .next t →
    ∃ t', runFor k s' = .next t' ∧ t.sameVisible t'

/-- A STORE to the very next cell is what the next cycle fetches, and a STORE over its own cell does not change
the word in `ir` (20_memory.md section 5, the spec's inference). -/
def Obligations.NextFetchSeesTheStore : Prop :=
  ∀ (s : State) (f : Fields) (addr d : Word), s.fetches →
    decode (s.mem.getCell s.pc.toNat) = .ok (.store f) → f.wellFormed s.regs.length = true →
    s.fetched.resolve f.mode f.dest f.imm = .ok addr → addr.toNat < s.memWords →
    s.regs[f.src1.toNat]? = some d →
    NextSatisfies (step s) fun t =>
      t.ir = s.mem.getCell s.pc.toNat ∧
      (addr = s.pc + 1 → NextSatisfies (step t) fun u => u.ir = d)

/-- A Running core whose cells from `pc` to the end are all zero runs to the end of memory, one cell a cycle,
and halts there with no fault, `x[0]` cleared if any cell was run: a program that runs off its end must end.
That the zero word is a LOAD is decision D22 (30_encoding.md section 4). -/
def Obligations.ZeroedMemoryRunsToACleanEnd : Prop :=
  ∀ s : State, s.config.legal → s.runState = .running → s.pc.toNat ≤ s.memWords →
    (∀ a, s.pc.toNat ≤ a → a < s.memWords → s.mem.getCell a = 0) →
    NextSatisfies (runFor (s.memWords - s.pc.toNat + 1) s) fun t =>
      t.runState = .halted ∧ t.pc.toNat = s.memWords ∧ t.faultRecord = s.faultRecord ∧ t.mem = s.mem ∧
      (s.pc.toNat < s.memWords → t.regs[0]? = some 0)
end

