-- ==== Sys2Proof/Laws/State.lean ====
section
/-! SUPPORT. What each field of State is after each update: one lemma a field an update. -/

namespace Sys2Proof.Machine

open Sys2Proof

/-! ### writeReg -/

@[simp] theorem State.writeReg_memWords (s : State) (i : BitVec 4) (v : Word) : (s.writeReg i v).memWords = s.memWords := rfl

@[simp] theorem State.writeReg_zeroReg (s : State) (i : BitVec 4) (v : Word) : (s.writeReg i v).zeroReg = s.zeroReg := rfl

@[simp] theorem State.writeReg_regs (s : State) (i : BitVec 4) (v : Word) : (s.writeReg i v).regs = s.regs.set i.toNat v := rfl

@[simp] theorem State.writeReg_pc (s : State) (i : BitVec 4) (v : Word) : (s.writeReg i v).pc = s.pc := rfl

@[simp] theorem State.writeReg_sp (s : State) (i : BitVec 4) (v : Word) : (s.writeReg i v).sp = s.sp := rfl

@[simp] theorem State.writeReg_ir (s : State) (i : BitVec 4) (v : Word) : (s.writeReg i v).ir = s.ir := rfl

@[simp] theorem State.writeReg_flags (s : State) (i : BitVec 4) (v : Word) : (s.writeReg i v).flags = s.flags := rfl

@[simp] theorem State.writeReg_runState (s : State) (i : BitVec 4) (v : Word) : (s.writeReg i v).runState = s.runState := rfl

@[simp] theorem State.writeReg_faultRecord (s : State) (i : BitVec 4) (v : Word) : (s.writeReg i v).faultRecord = s.faultRecord := rfl

@[simp] theorem State.writeReg_mem (s : State) (i : BitVec 4) (v : Word) : (s.writeReg i v).mem = s.mem := rfl

/-! ### writeBack -/

@[simp] theorem State.writeBack_memWords (s : State) (d : BitVec 4) (r : Word) (fl : Flags) : (s.writeBack d r fl).memWords = s.memWords := rfl

@[simp] theorem State.writeBack_zeroReg (s : State) (d : BitVec 4) (r : Word) (fl : Flags) : (s.writeBack d r fl).zeroReg = s.zeroReg := rfl

@[simp] theorem State.writeBack_regs (s : State) (d : BitVec 4) (r : Word) (fl : Flags) : (s.writeBack d r fl).regs = s.regs.set d.toNat r := rfl

@[simp] theorem State.writeBack_pc (s : State) (d : BitVec 4) (r : Word) (fl : Flags) : (s.writeBack d r fl).pc = s.pc := rfl

@[simp] theorem State.writeBack_sp (s : State) (d : BitVec 4) (r : Word) (fl : Flags) : (s.writeBack d r fl).sp = s.sp := rfl

@[simp] theorem State.writeBack_ir (s : State) (d : BitVec 4) (r : Word) (fl : Flags) : (s.writeBack d r fl).ir = s.ir := rfl

@[simp] theorem State.writeBack_flags (s : State) (d : BitVec 4) (r : Word) (fl : Flags) : (s.writeBack d r fl).flags = fl := rfl

@[simp] theorem State.writeBack_runState (s : State) (d : BitVec 4) (r : Word) (fl : Flags) : (s.writeBack d r fl).runState = s.runState := rfl

@[simp] theorem State.writeBack_faultRecord (s : State) (d : BitVec 4) (r : Word) (fl : Flags) : (s.writeBack d r fl).faultRecord = s.faultRecord := rfl

@[simp] theorem State.writeBack_mem (s : State) (d : BitVec 4) (r : Word) (fl : Flags) : (s.writeBack d r fl).mem = s.mem := rfl

/-! ### setPc -/

@[simp] theorem State.setPc_memWords (s : State) (v : Word) : (s.setPc v).memWords = s.memWords := rfl

@[simp] theorem State.setPc_zeroReg (s : State) (v : Word) : (s.setPc v).zeroReg = s.zeroReg := rfl

@[simp] theorem State.setPc_regs (s : State) (v : Word) : (s.setPc v).regs = s.regs := rfl

@[simp] theorem State.setPc_pc (s : State) (v : Word) : (s.setPc v).pc = v := rfl

@[simp] theorem State.setPc_sp (s : State) (v : Word) : (s.setPc v).sp = s.sp := rfl

@[simp] theorem State.setPc_ir (s : State) (v : Word) : (s.setPc v).ir = s.ir := rfl

@[simp] theorem State.setPc_flags (s : State) (v : Word) : (s.setPc v).flags = s.flags := rfl

@[simp] theorem State.setPc_runState (s : State) (v : Word) : (s.setPc v).runState = s.runState := rfl

@[simp] theorem State.setPc_faultRecord (s : State) (v : Word) : (s.setPc v).faultRecord = s.faultRecord := rfl

@[simp] theorem State.setPc_mem (s : State) (v : Word) : (s.setPc v).mem = s.mem := rfl

/-! ### stop -/

@[simp] theorem State.stop_memWords (s : State) : s.stop.memWords = s.memWords := rfl

@[simp] theorem State.stop_zeroReg (s : State) : s.stop.zeroReg = s.zeroReg := rfl

@[simp] theorem State.stop_regs (s : State) : s.stop.regs = s.regs := rfl

@[simp] theorem State.stop_pc (s : State) : s.stop.pc = s.pc := rfl

@[simp] theorem State.stop_sp (s : State) : s.stop.sp = s.sp := rfl

@[simp] theorem State.stop_ir (s : State) : s.stop.ir = s.ir := rfl

@[simp] theorem State.stop_flags (s : State) : s.stop.flags = s.flags := rfl

@[simp] theorem State.stop_runState (s : State) : s.stop.runState = .halted := rfl

@[simp] theorem State.stop_faultRecord (s : State) : s.stop.faultRecord = s.faultRecord := rfl

@[simp] theorem State.stop_mem (s : State) : s.stop.mem = s.mem := rfl

/-! ### fetch -/

@[simp] theorem State.fetch_memWords (s : State) : s.fetch.memWords = s.memWords := rfl

@[simp] theorem State.fetch_zeroReg (s : State) : s.fetch.zeroReg = s.zeroReg := rfl

@[simp] theorem State.fetch_regs (s : State) : s.fetch.regs = s.regs := rfl

@[simp] theorem State.fetch_pc (s : State) : s.fetch.pc = s.pc + 1 := rfl

@[simp] theorem State.fetch_sp (s : State) : s.fetch.sp = s.sp := rfl

@[simp] theorem State.fetch_ir (s : State) : s.fetch.ir = s.mem.getCell s.pc.toNat := rfl

@[simp] theorem State.fetch_flags (s : State) : s.fetch.flags = s.flags := rfl

@[simp] theorem State.fetch_runState (s : State) : s.fetch.runState = s.runState := rfl

@[simp] theorem State.fetch_faultRecord (s : State) : s.fetch.faultRecord = s.faultRecord := rfl

@[simp] theorem State.fetch_mem (s : State) : s.fetch.mem = s.mem := rfl

/-! ### raise -/

@[simp] theorem State.raise_memWords (s : State) (k : FaultKind) : (s.raise k).memWords = s.memWords := rfl

@[simp] theorem State.raise_zeroReg (s : State) (k : FaultKind) : (s.raise k).zeroReg = s.zeroReg := rfl

@[simp] theorem State.raise_regs (s : State) (k : FaultKind) : (s.raise k).regs = s.regs := rfl

@[simp] theorem State.raise_pc (s : State) (k : FaultKind) : (s.raise k).pc = s.pc := rfl

@[simp] theorem State.raise_sp (s : State) (k : FaultKind) : (s.raise k).sp = s.sp := rfl

@[simp] theorem State.raise_ir (s : State) (k : FaultKind) : (s.raise k).ir = s.ir := rfl

@[simp] theorem State.raise_flags (s : State) (k : FaultKind) : (s.raise k).flags = s.flags := rfl

@[simp] theorem State.raise_runState (s : State) (k : FaultKind) : (s.raise k).runState = .faulted := rfl

@[simp] theorem State.raise_faultRecord (s : State) (k : FaultKind) : (s.raise k).faultRecord = some { kind := k, pc := s.pc } := rfl

@[simp] theorem State.raise_mem (s : State) (k : FaultKind) : (s.raise k).mem = s.mem := rfl

/-! ### enterRunning -/

@[simp] theorem State.enterRunning_memWords (s : State) : s.enterRunning.memWords = s.memWords := rfl

@[simp] theorem State.enterRunning_zeroReg (s : State) : s.enterRunning.zeroReg = s.zeroReg := rfl

@[simp] theorem State.enterRunning_regs (s : State) : s.enterRunning.regs = s.regs := rfl

@[simp] theorem State.enterRunning_pc (s : State) : s.enterRunning.pc = s.pc := rfl

@[simp] theorem State.enterRunning_sp (s : State) : s.enterRunning.sp = s.sp := rfl

@[simp] theorem State.enterRunning_ir (s : State) : s.enterRunning.ir = s.ir := rfl

@[simp] theorem State.enterRunning_flags (s : State) : s.enterRunning.flags = s.flags := rfl

@[simp] theorem State.enterRunning_runState (s : State) : s.enterRunning.runState = .running := rfl

@[simp] theorem State.enterRunning_faultRecord (s : State) : s.enterRunning.faultRecord = s.faultRecord := rfl

@[simp] theorem State.enterRunning_mem (s : State) : s.enterRunning.mem = s.mem := rfl

/-! ### forceZeroReg -/

@[simp] theorem State.forceZeroReg_memWords (s : State) : s.forceZeroReg.memWords = s.memWords := by
  unfold State.forceZeroReg; split <;> rfl

@[simp] theorem State.forceZeroReg_zeroReg (s : State) : s.forceZeroReg.zeroReg = s.zeroReg := by
  unfold State.forceZeroReg; split <;> rfl

@[simp] theorem State.forceZeroReg_pc (s : State) : s.forceZeroReg.pc = s.pc := by
  unfold State.forceZeroReg; split <;> rfl

@[simp] theorem State.forceZeroReg_sp (s : State) : s.forceZeroReg.sp = s.sp := by
  unfold State.forceZeroReg; split <;> rfl

@[simp] theorem State.forceZeroReg_ir (s : State) : s.forceZeroReg.ir = s.ir := by
  unfold State.forceZeroReg; split <;> rfl

@[simp] theorem State.forceZeroReg_flags (s : State) : s.forceZeroReg.flags = s.flags := by
  unfold State.forceZeroReg; split <;> rfl

@[simp] theorem State.forceZeroReg_runState (s : State) : s.forceZeroReg.runState = s.runState := by
  unfold State.forceZeroReg; split <;> rfl

@[simp] theorem State.forceZeroReg_faultRecord (s : State) : s.forceZeroReg.faultRecord = s.faultRecord := by
  unfold State.forceZeroReg; split <;> rfl

@[simp] theorem State.forceZeroReg_mem (s : State) : s.forceZeroReg.mem = s.mem := by
  unfold State.forceZeroReg; split <;> rfl

/-- The registers after the zero-register step. -/
theorem State.forceZeroReg_regs (s : State) :
    s.forceZeroReg.regs = match s.zeroReg with | none => s.regs | some z => s.regs.set z 0 := by
  unfold State.forceZeroReg; split <;> simp_all

@[simp] theorem State.forceZeroReg_regs_length (s : State) : s.forceZeroReg.regs.length = s.regs.length := by
  rw [State.forceZeroReg_regs]; split <;> simp

/-- Without a zero register the step changes nothing. -/
theorem State.forceZeroReg_of_none (s : State) (h : s.zeroReg = none) : s.forceZeroReg = s := by
  unfold State.forceZeroReg; rw [h]

/-- The zero-register step changes only the registers. -/
theorem State.forceZeroReg_eq (s : State) : s.forceZeroReg = { s with regs := s.forceZeroReg.regs } := by
  unfold State.forceZeroReg; split <;> rfl

/-- A register other than the zero register is as before the zero-register step. -/
theorem State.forceZeroReg_getElem?_ne (s : State) (n : Nat) (h : s.zeroReg ≠ some n) :
    s.forceZeroReg.regs[n]? = s.regs[n]? := by
  rw [State.forceZeroReg_regs]
  split
  · rfl
  · next z hz => exact List.getElem?_set_ne (by rintro rfl; exact h hz)

/-- The zero register reads zero after the zero-register step. -/
theorem State.forceZeroReg_getElem?_zero (s : State) (z : Nat) (h : s.zeroReg = some z) (hz : z < s.regs.length) :
    s.forceZeroReg.regs[z]? = some 0 := by
  rw [State.forceZeroReg_regs, h]; simp [hz]

@[simp] theorem State.regCount_eq (s : State) : s.regCount = s.regs.length := rfl

end Sys2Proof.Machine
end

