-- ==== Sys2Proof/Laws/Memory.lean ====
section
/-! SUPPORT. The laws of the memory: read after write, the frame of a write, the canonical form. They hold of
every list, in canonical form or not, but for the last group. -/

namespace Sys2Proof.Machine

open Sys2Proof

/-! ### Bytes -/

theorem Memory.getByte_filter_ne (m : Memory) (a b : Nat) (h : b ≠ a) :
    Memory.getByte (m.filter fun c => !decide (c.1 = a)) b = Memory.getByte m b := by
  induction m with
  | nil => rfl
  | cons c m ih =>
    by_cases hc : c.1 = a
    · have : c.1 ≠ b := fun h' => h (h' ▸ hc)
      simp [hc, Memory.getByte, ih, Ne.symm h]
    · simp [hc, Memory.getByte, ih]

theorem Memory.getByte_filter_same (m : Memory) (a : Nat) :
    Memory.getByte (m.filter fun c => !decide (c.1 = a)) a = Memory.unlisted := by
  induction m with
  | nil => rfl
  | cons c m ih =>
    by_cases hc : c.1 = a
    · simp [hc, ih]
    · simp [hc, Memory.getByte, ih]

theorem Memory.getByte_insertByte_ne (m : Memory) (a b : Nat) (v : Byte) (h : b ≠ a) :
    Memory.getByte (Memory.insertByte a v m) b = Memory.getByte m b := by
  induction m with
  | nil => simp [Memory.insertByte, Memory.getByte, Ne.symm h]
  | cons c m ih =>
    unfold Memory.insertByte
    split
    · simp [Memory.getByte, Ne.symm h]
    · simp [Memory.getByte, ih]

theorem Memory.getByte_insertByte_same (m : Memory) (a : Nat) (v : Byte) (h : ∀ c ∈ m, c.1 ≠ a) :
    Memory.getByte (Memory.insertByte a v m) a = v := by
  induction m with
  | nil => simp [Memory.insertByte, Memory.getByte]
  | cons c m ih =>
    unfold Memory.insertByte
    split
    · simp [Memory.getByte]
    · simp [Memory.getByte, h c (by simp), ih fun d hd => h d (by simp [hd])]

/-- A byte just written reads as written. -/
@[simp] theorem Memory.getByte_setByte_same (m : Memory) (a : Nat) (v : Byte) :
    (m.setByte a v).getByte a = v := by
  unfold Memory.setByte
  split
  · next h => rw [Memory.getByte_filter_same, h]
  · exact Memory.getByte_insertByte_same _ _ _ (by simp)

/-- Writing a byte leaves every other byte alone. -/
theorem Memory.getByte_setByte_ne (m : Memory) (a b : Nat) (v : Byte) (h : b ≠ a) :
    (m.setByte a v).getByte b = m.getByte b := by
  unfold Memory.setByte
  split
  · exact Memory.getByte_filter_ne m a b h
  · exact (Memory.getByte_insertByte_ne _ a b v h).trans (Memory.getByte_filter_ne m a b h)

/-! ### Cells -/

/-- A word is its four lanes, the highest first. -/
theorem byteLane_append (w : Word) :
    byteLane w 3 ++ byteLane w 2 ++ byteLane w 1 ++ byteLane w 0 = w := by
  unfold byteLane
  ext i hi
  simp only [BitVec.getElem_append, BitVec.getElem_extractLsb']
  have h32 : i < 32 := hi
  split
  · simpa using BitVec.getLsbD_eq_getElem h32
  · split
    · rw [show 8 * 1 + (i - 8) = i by omega]
      exact BitVec.getLsbD_eq_getElem h32
    · split
      · rw [show 8 * 2 + (i - 8 - 8) = i by omega]
        exact BitVec.getLsbD_eq_getElem h32
      · rw [show 8 * 3 + (i - 8 - 8 - 8) = i by omega]
        exact BitVec.getLsbD_eq_getElem h32

/-- A cell just written reads as written (20_memory.md rule R51). -/
@[simp] theorem Memory.getCell_setCell_same (m : Memory) (a : Nat) (w : Word) :
    (m.setCell a w).getCell a = w := by
  unfold Memory.getCell Memory.setCell
  rw [Memory.getByte_setByte_same,
    Memory.getByte_setByte_ne _ _ (byteAddress a + 2) _ (by omega), Memory.getByte_setByte_same,
    Memory.getByte_setByte_ne _ _ (byteAddress a + 1) _ (by omega),
    Memory.getByte_setByte_ne _ _ (byteAddress a + 1) _ (by omega), Memory.getByte_setByte_same,
    Memory.getByte_setByte_ne _ _ (byteAddress a) _ (by omega),
    Memory.getByte_setByte_ne _ _ (byteAddress a) _ (by omega),
    Memory.getByte_setByte_ne _ _ (byteAddress a) _ (by omega), Memory.getByte_setByte_same]
  exact byteLane_append w

/-- Writing a cell leaves every byte outside its four alone. -/
theorem Memory.getByte_setCell_outside (m : Memory) (a b : Nat) (w : Word)
    (h : b < byteAddress a ∨ byteAddress a + 4 ≤ b) : (m.setCell a w).getByte b = m.getByte b := by
  unfold Memory.setCell
  rw [Memory.getByte_setByte_ne _ _ _ _ (by omega), Memory.getByte_setByte_ne _ _ _ _ (by omega),
    Memory.getByte_setByte_ne _ _ _ _ (by omega), Memory.getByte_setByte_ne _ _ _ _ (by omega)]

/-- Writing a cell leaves every other cell alone (20_memory.md rule R51). -/
theorem Memory.getCell_setCell_ne (m : Memory) (a b : Nat) (w : Word) (h : b ≠ a) :
    (m.setCell a w).getCell b = m.getCell b := by
  unfold Memory.getCell
  have hb : byteAddress b + 4 ≤ byteAddress a ∨ byteAddress a + 4 ≤ byteAddress b := by
    unfold byteAddress; omega
  rw [Memory.getByte_setCell_outside _ _ _ _ (by omega), Memory.getByte_setCell_outside _ _ _ _ (by omega),
    Memory.getByte_setCell_outside _ _ _ _ (by omega), Memory.getByte_setCell_outside _ _ _ _ (by omega)]

/-- Memories that agree on every byte agree on every cell. -/
theorem Memory.getCell_congr (m m' : Memory) (h : ∀ b, m'.getByte b = m.getByte b) (a : Nat) :
    m'.getCell a = m.getCell a := by
  simp only [Memory.getCell, h]

/-- Writing a run of cells leaves every cell outside the run. -/
theorem Memory.getCell_setCells_outside (ws : List Word) (m : Memory) (a b : Nat)
    (h : b < a ∨ a + ws.length ≤ b) : (m.setCells a ws).getCell b = m.getCell b := by
  induction ws generalizing m a with
  | nil => rfl
  | cons w ws ih =>
    rw [List.length_cons] at h
    rw [Memory.setCells, ih _ _ (by omega), Memory.getCell_setCell_ne _ _ _ _ (by omega)]

/-- Each cell of a run reads the word written to it. -/
theorem Memory.getCell_setCells (ws : List Word) (m : Memory) (a j : Nat) (w : Word) (h : ws[j]? = some w) :
    (m.setCells a ws).getCell (a + j) = w := by
  induction ws generalizing m a j with
  | nil => cases h
  | cons x ws ih =>
    rw [Memory.setCells]
    cases j with
    | zero =>
      cases h
      rw [Memory.getCell_setCells_outside _ _ _ _ (by omega)]
      exact Memory.getCell_setCell_same m a w
    | succ j =>
      rw [show a + (j + 1) = a + 1 + j by omega]
      exact ih _ _ _ h

/-- Copying words into consecutive cells leaves every byte outside them alone. -/
theorem Memory.getByte_setCells_outside (ws : List Word) (m : Memory) (a b : Nat)
    (h : b < byteAddress a ∨ byteAddress (a + ws.length) ≤ b) : (m.setCells a ws).getByte b = m.getByte b := by
  induction ws generalizing m a with
  | nil => rfl
  | cons w ws ih =>
    simp only [List.length_cons, byteAddress] at h
    simp only [Memory.setCells]
    rw [ih _ _ (by unfold byteAddress; omega),
      Memory.getByte_setCell_outside _ _ _ _ (by unfold byteAddress; omega)]

@[simp] theorem Memory.getByte_nil (a : Nat) : Memory.getByte [] a = 0 := rfl

/-- Memory is zero-initialized (10_state.md rule R40). -/
@[simp] theorem Memory.getCell_nil (a : Nat) : Memory.getCell [] a = 0 := by
  simp only [Memory.getCell, Memory.getByte_nil]; decide

/-! ### The canonical form -/

theorem Memory.mem_insertByte (m : Memory) (a : Nat) (v : Byte) (c : Host.Cell)
    (h : c ∈ Memory.insertByte a v m) : c = (a, v) ∨ c ∈ m := by
  induction m with
  | nil => simpa [Memory.insertByte] using h
  | cons d m ih =>
    unfold Memory.insertByte at h
    split at h
    · simpa using h
    · rcases List.mem_cons.mp h with rfl | h
      · simp
      · rcases ih h with h | h <;> simp [h]

theorem Memory.mem_setByte (m : Memory) (a : Nat) (v : Byte) (c : Host.Cell) (h : c ∈ m.setByte a v) :
    c = (a, v) ∨ c ∈ m := by
  unfold Memory.setByte at h
  split at h
  · exact .inr (List.mem_filter.mp h).1
  · exact (Memory.mem_insertByte _ _ _ _ h).imp_right fun h => (List.mem_filter.mp h).1

theorem Memory.insertByte_pairwise (m : Memory) (a : Nat) (v : Byte)
    (hm : m.Pairwise fun c d => c.1 < d.1) (ha : ∀ c ∈ m, c.1 ≠ a) :
    (Memory.insertByte a v m).Pairwise fun c d => c.1 < d.1 := by
  induction m with
  | nil => simp [Memory.insertByte]
  | cons c m ih =>
    obtain ⟨hc, hm⟩ := List.pairwise_cons.mp hm
    unfold Memory.insertByte
    split
    · next h =>
      refine List.pairwise_cons.mpr ⟨fun d hd => ?_, List.pairwise_cons.mpr ⟨hc, hm⟩⟩
      rcases List.mem_cons.mp hd with rfl | hd
      · exact h
      · exact h.trans (hc d hd)
    · next h =>
      refine List.pairwise_cons.mpr ⟨fun d hd => ?_, ih hm fun d hd => ha d (by simp [hd])⟩
      have := ha c (by simp)
      rcases Memory.mem_insertByte _ _ _ _ hd with rfl | hd
      · simp only; omega
      · exact hc d hd

/-- Writing a byte keeps the canonical form. -/
theorem Memory.setByte_wf (m : Memory) (a : Nat) (v : Byte) (h : m.wf) : (m.setByte a v).wf := by
  have hf : (m.filter fun c => !decide (c.1 = a)).Pairwise fun c d => c.1 < d.1 := h.1.filter _
  refine ⟨?_, fun c hc => ?_⟩
  · unfold Memory.setByte
    split
    · exact hf
    · exact Memory.insertByte_pairwise _ _ _ hf (by simp)
  · unfold Memory.setByte at hc
    split at hc
    · exact h.2 c (List.mem_filter.mp hc).1
    · next hv =>
      rcases Memory.mem_insertByte _ _ _ _ hc with rfl | hc
      · exact hv
      · exact h.2 c (List.mem_filter.mp hc).1

/-- Writing a cell keeps the canonical form. -/
theorem Memory.setCell_wf (m : Memory) (a : Nat) (w : Word) (h : m.wf) : (m.setCell a w).wf :=
  Memory.setByte_wf _ _ _ <| Memory.setByte_wf _ _ _ <| Memory.setByte_wf _ _ _ <| Memory.setByte_wf _ _ _ h

/-- Writing cells keeps the canonical form. -/
theorem Memory.setCells_wf (ws : List Word) (m : Memory) (a : Nat) (h : m.wf) : (m.setCells a ws).wf := by
  induction ws generalizing m a with
  | nil => exact h
  | cons w ws ih => exact ih _ _ (Memory.setCell_wf m a w h)

/-- A byte listed after a cell is written was listed before or is one of the cell's four. -/
theorem Memory.mem_setCell (m : Memory) (a : Nat) (w : Word) (c : Host.Cell) (h : c ∈ m.setCell a w) :
    (byteAddress a ≤ c.1 ∧ c.1 < byteAddress a + 4) ∨ c ∈ m := by
  unfold Memory.setCell at h
  rcases Memory.mem_setByte _ _ _ _ h with rfl | h
  · exact .inl ⟨by simp, by simp⟩
  rcases Memory.mem_setByte _ _ _ _ h with rfl | h
  · exact .inl ⟨by simp, by simp⟩
  rcases Memory.mem_setByte _ _ _ _ h with rfl | h
  · exact .inl ⟨by simp, by simp⟩
  rcases Memory.mem_setByte _ _ _ _ h with rfl | h
  · exact .inl ⟨by simp, by simp⟩
  exact .inr h

/-- Writing a cell below the capacity lists no byte past it. -/
theorem Memory.setCell_bounded (m : Memory) (a n : Nat) (w : Word) (ha : a < n)
    (h : ∀ c ∈ m, c.1 < byteAddress n) : ∀ c ∈ m.setCell a w, c.1 < byteAddress n := by
  intro c hc
  rcases Memory.mem_setCell _ _ _ _ hc with hc | hc
  · unfold byteAddress at *; omega
  · exact h c hc

/-- Writing cells below the capacity lists no byte past it. -/
theorem Memory.setCells_bounded (ws : List Word) (m : Memory) (a n : Nat) (ha : a + ws.length ≤ n)
    (h : ∀ c ∈ m, c.1 < byteAddress n) : ∀ c ∈ m.setCells a ws, c.1 < byteAddress n := by
  induction ws generalizing m a with
  | nil => exact h
  | cons w ws ih =>
    simp only [List.length_cons] at ha
    exact ih _ _ (by omega) (Memory.setCell_bounded m a n w (by omega) h)

/-- A fresh state's memory is in canonical form. -/
theorem State.create_mem_wf (c : Config) : (State.create c).mem.wf := by
  simp [State.create, Memory.wf]

/-- The reset state's memory is in canonical form. -/
theorem State.reset_mem_wf : State.reset.mem.wf := State.create_mem_wf _

end Sys2Proof.Machine
end

