-- ==== Sys2Proof/Laws/Syntax.lean ====
section
/-! SUPPORT. The small lemmas of the checks and of the mode numbering. -/

namespace Sys2Proof

/-- Well-formed fields pass both checks. -/
theorem Fields.wellFormed_parts (n : Nat) (f : Fields) (h : f.wellFormed n = true) :
    f.registersValid n = true ∧ f.modeValid = true := by
  unfold Fields.wellFormed at h; simpa using h

/-- A mode field is defined exactly when the check passes. -/
theorem Mode.ofBits_isSome_iff (f : Fields) : (Mode.ofBits f.mode).isSome = true ↔ f.modeValid = true := by
  unfold Fields.modeValid
  generalize f.mode = m
  revert m; decide

@[simp] theorem Mode.ofBits_toBits (m : Mode) : Mode.ofBits m.toBits = some m := by cases m <;> rfl

/-- What well-formed fields are, spelt out. -/
theorem Fields.wellFormed_iff (n : Nat) (f : Fields) :
    f.wellFormed n = true ↔
      f.dest.toNat < n ∧ f.src1.toNat < n ∧ f.src2.toNat < n ∧ f.mode.toNat ≤ 4 := by
  simp [Fields.wellFormed, Fields.registersValid, Fields.modeValid, and_assoc]

end Sys2Proof
end

