-- ==== Sys2Proof/Laws/Execute.lean ====
section
/-! SUPPORT. What each shared operation of execution can do, said once: the accesses, the resolver, the checks,
how an instruction settles, and the shapes of the instructions. -/

namespace Sys2Proof.Machine

open Sys2Proof

/-! ### Bounds-checked accesses -/

theorem State.memRead_of_lt (s : State) (a : Nat) (h : a < s.memWords) : s.memRead a = .ok (s.mem.getCell a) := by
  unfold State.memRead; rw [if_neg (by omega)]

theorem State.memRead_of_le (s : State) (a : Nat) (h : s.memWords ≤ a) : s.memRead a = .error .outOfBounds := by
  unfold State.memRead; rw [if_pos h]

theorem State.memWrite_of_lt (s : State) (a : Nat) (v : Word) (h : a < s.memWords) :
    s.memWrite a v = .ok { s with mem := s.mem.setCell a v } := by
  unfold State.memWrite; rw [if_neg (by omega)]

theorem State.memWrite_of_le (s : State) (a : Nat) (v : Word) (h : s.memWords ≤ a) :
    s.memWrite a v = .error .outOfBounds := by
  unfold State.memWrite; rw [if_pos h]

/-- A read that answers is in bounds and gives the cell. -/
theorem State.memRead_cases (s : State) (a : Nat) (v : Word) (h : s.memRead a = .ok v) :
    a < s.memWords ∧ v = s.mem.getCell a := by
  unfold State.memRead at h
  split at h
  · cases h
  · cases h; exact ⟨by omega, rfl⟩

/-- A write that answers is in bounds and changes the cell. -/
theorem State.memWrite_cases (s t : State) (a : Nat) (v : Word) (h : s.memWrite a v = .ok t) :
    a < s.memWords ∧ t = { s with mem := s.mem.setCell a v } := by
  unfold State.memWrite at h
  split at h
  · cases h
  · cases h; exact ⟨by omega, rfl⟩

/-- A Program load that answers ran in Ready, its image fits, and it writes the image and `pc`. -/
theorem State.load_cases (s t : State) (ws : List Word) (start : Nat) (h : s.load ws start = .loaded t) :
    s.runState = .ready ∧ start + ws.length ≤ s.memWords ∧
      t = { s with mem := s.mem.setCells start ws, pc := BitVec.ofNat 32 start } := by
  unfold State.load at h
  split at h
  · cases h
  · split at h
    · cases h
    · cases h; exact ⟨by_contra (by assumption), by omega, rfl⟩

/-! ### Checks and resolver -/

/-- The checks pass exactly for well-formed fields. -/
theorem State.validate_ok_iff (s : State) (f : Fields) :
    s.validate f = .ok () ↔ f.wellFormed s.regs.length = true := by
  unfold State.validate Fields.wellFormed
  rw [State.regCount_eq]
  generalize f.registersValid s.regs.length = x, f.modeValid = y
  cases x <;> cases y <;> simp

/-- What a failed check raises: InvalidRegister for a bad register field, else InvalidAddressingMode. -/
theorem State.validate_error_cases (s : State) (f : Fields) (k : FaultKind) (h : s.validate f = .error k) :
    (f.registersValid s.regs.length = false ∧ k = .invalidRegister) ∨
    (f.registersValid s.regs.length = true ∧ f.modeValid = false ∧ k = .invalidAddressingMode) := by
  unfold State.validate at h
  rw [State.regCount_eq] at h
  split at h
  · next hr => cases h; exact .inl ⟨hr, rfl⟩
  · next hr =>
    split at h
    · next hm => cases h; exact .inr ⟨by simpa using hr, hm, rfl⟩
    · cases h

/-- The resolver on a valid index and a defined mode is the operand form. -/
theorem State.resolve_of_valid (s : State) (mode r : BitVec 4) (imm : BitVec 11) (m : Mode)
    (hr : r.toNat < s.regs.length) (hm : Mode.ofBits mode = some m) :
    s.resolve mode r imm = s.operand m r imm := by
  unfold State.resolve
  rw [if_neg (by simpa using hr), hm]

/-- A resolver that answers had a valid index and a defined mode. -/
theorem State.resolve_cases (s : State) (mode r : BitVec 4) (imm : BitVec 11) (v : Word)
    (h : s.resolve mode r imm = .ok v) :
    r.toNat < s.regs.length ∧ ∃ m, Mode.ofBits mode = some m ∧ s.operand m r imm = .ok v := by
  unfold State.resolve at h
  split at h
  · cases h
  · next hr =>
    split at h
    · cases h
    · next m hm => exact ⟨by simpa using hr, m, hm, h⟩

/-- With a valid index and a defined mode, a resolver can fail only with OutOfBounds. -/
theorem State.resolve_error_cases (s : State) (f : Fields) (r : BitVec 4) (k : FaultKind)
    (hr : r.toNat < s.regs.length) (hm : f.modeValid = true) (h : s.resolve f.mode r f.imm = .error k) :
    k = .outOfBounds := by
  obtain ⟨m, hm⟩ := Option.isSome_iff_exists.mp ((Mode.ofBits_isSome_iff f).mpr hm)
  rw [State.resolve_of_valid _ _ _ _ m hr hm] at h
  cases m <;> simp only [State.operand, State.memRead] at h
  · cases h
  · cases h
  all_goals (split at h <;> cases h; rfl)

/-! ### Settling -/

@[simp] theorem State.settle_ok (s t : State) : s.settle (.ok t) = .next t.forceZeroReg := rfl

@[simp] theorem State.settle_error (s : State) (k : FaultKind) : s.settle (.error k) = .next (s.raise k) := rfl

/-- Settling always has a next state: the completed one, or the fault taken. -/
theorem State.settle_cases (s t : State) (r : Except FaultKind State) (h : s.settle r = .next t) :
    (∃ u, r = .ok u ∧ t = u.forceZeroReg) ∨ ∃ k, r = .error k ∧ t = s.raise k := by
  cases r with
  | ok u => cases h; exact .inl ⟨u, rfl, rfl⟩
  | error k => cases h; exact .inr ⟨k, rfl, rfl⟩

/-- A sequence of two computations that answers had both answer. -/
theorem bind_eq_ok_cases {α β : Type} (x : Except FaultKind α) (g : α → Except FaultKind β) (b : β)
    (h : x >>= g = .ok b) : ∃ a, x = .ok a ∧ g a = .ok b := by
  cases x with
  | ok a => exact ⟨a, rfl, h⟩
  | error k => cases h

/-- A sequence of two computations that fails had the first fail, or the second after the first answered. -/
theorem bind_eq_error_cases {α β : Type} (x : Except FaultKind α) (g : α → Except FaultKind β) (k : FaultKind)
    (h : x >>= g = .error k) : x = .error k ∨ ∃ a, x = .ok a ∧ g a = .error k := by
  cases x with
  | ok a => exact .inr ⟨a, rfl, h⟩
  | error k' => cases h; exact .inl rfl

/-- A sequence whose first computation fails settles as that fault. -/
theorem State.settle_bind_error {α : Type} (s : State) (x : Except FaultKind α) (g : α → Except FaultKind State)
    (k : FaultKind) (h : x = .error k) : s.settle (x >>= g) = .next (s.raise k) := by subst h; rfl

/-- Well-formed fields pass the checks and execution goes on. -/
theorem State.validate_bind {β : Type} (s : State) (f : Fields) (g : Unit → Except FaultKind β)
    (hf : f.wellFormed s.regs.length = true) : (s.validate f >>= g) = g () := by
  rw [(s.validate_ok_iff f).mpr hf]; rfl

/-! ### The shapes of the instructions, forwards -/

/-- An instruction whose fields fail the checks takes that fault, whichever it is. -/
theorem exec_of_invalid (i : Instr) (s : State) (k : FaultKind) (h : s.validate i.fields = .error k) :
    exec i s = .next (s.raise k) := by
  cases i <;> exact s.settle_bind_error _ _ _ h

/-- A two-operand instruction whose operands resolve does its operation. -/
theorem execBinary_of_operands (op : Word → Word → Flags → Except FaultKind AluResult) (f : Fields) (s : State)
    (a b : Word) (hf : f.wellFormed s.regs.length = true) (ha : s.resolve f.mode f.src1 f.imm = .ok a)
    (hb : s.resolve f.mode f.src2 f.imm = .ok b) :
    execBinary op f s =
      s.settle ((op a b s.flags).map fun res => s.writeBack f.dest res.r res.flags) := by
  unfold execBinary
  rw [s.validate_bind f _ hf, ha, hb]
  change s.settle (Except.bind (op a b s.flags) _) = _
  generalize op a b s.flags = res
  cases res <;> rfl

/-- A two-operand instruction whose first operand fails takes that fault. -/
theorem execBinary_of_error_first (op : Word → Word → Flags → Except FaultKind AluResult) (f : Fields) (s : State)
    (k : FaultKind) (hf : f.wellFormed s.regs.length = true) (ha : s.resolve f.mode f.src1 f.imm = .error k) :
    execBinary op f s = .next (s.raise k) := by
  unfold execBinary
  rw [s.validate_bind f _ hf]
  exact s.settle_bind_error _ _ _ ha

/-- A two-operand instruction whose second operand fails takes that fault. -/
theorem execBinary_of_error_second (op : Word → Word → Flags → Except FaultKind AluResult) (f : Fields) (s : State)
    (a : Word) (k : FaultKind) (hf : f.wellFormed s.regs.length = true)
    (ha : s.resolve f.mode f.src1 f.imm = .ok a) (hb : s.resolve f.mode f.src2 f.imm = .error k) :
    execBinary op f s = .next (s.raise k) := by
  unfold execBinary
  rw [s.validate_bind f _ hf, ha]
  exact s.settle_bind_error (s.resolve f.mode f.src2 f.imm) _ _ hb

/-- A one-operand instruction whose operand resolves does its operation. -/
theorem execUnary_of_operand (op : Word → Flags → AluResult) (f : Fields) (s : State) (a : Word)
    (hf : f.wellFormed s.regs.length = true) (ha : s.resolve f.mode f.src1 f.imm = .ok a) :
    execUnary op f s = .next (s.writeBack f.dest (op a s.flags).r (op a s.flags).flags).forceZeroReg := by
  unfold execUnary
  rw [s.validate_bind f _ hf, ha]
  rfl

/-- A one-operand instruction whose operand fails takes that fault. -/
theorem execUnary_of_error (op : Word → Flags → AluResult) (f : Fields) (s : State) (k : FaultKind)
    (hf : f.wellFormed s.regs.length = true) (ha : s.resolve f.mode f.src1 f.imm = .error k) :
    execUnary op f s = .next (s.raise k) := by
  unfold execUnary
  rw [s.validate_bind f _ hf]
  exact s.settle_bind_error _ _ _ ha

/-- A STORE whose address resolves settles as its write does. -/
theorem execStore_of_address (f : Fields) (s : State) (addr : Word) (hf : f.wellFormed s.regs.length = true)
    (ha : s.resolve f.mode f.dest f.imm = .ok addr) :
    execStore f s = s.settle (s.memWrite addr.toNat (s.readReg f.src1)) := by
  unfold execStore
  rw [s.validate_bind f _ hf, ha]; rfl

/-- A STORE whose address read fails takes that fault. -/
theorem execStore_of_error (f : Fields) (s : State) (k : FaultKind) (hf : f.wellFormed s.regs.length = true)
    (ha : s.resolve f.mode f.dest f.imm = .error k) : execStore f s = .next (s.raise k) := by
  unfold execStore
  rw [s.validate_bind f _ hf]
  exact s.settle_bind_error _ _ _ ha

/-! ### The shapes of the instructions, all they can do -/

/-- Why a well-formed instruction of any shape faults, or an ill-formed one. -/
def FaultsBecause (i : Instr) (s : State) (k : FaultKind) : Prop :=
  s.validate i.fields = .error k ∨
    (i.wellFormed s.regs.length = true ∧ (k = .outOfBounds ∨ k = .divisionByZero ∧ ∃ f, i = .div f))

/-- All that a two-operand instruction can do. -/
theorem execBinary_cases (op : Word → Word → Flags → Except FaultKind AluResult) (f : Fields) (s t : State)
    (h : execBinary op f s = .next t) :
    (∃ k, t = s.raise k ∧ (s.validate f = .error k ∨ (f.wellFormed s.regs.length = true ∧
      (k = .outOfBounds ∨ ∃ a b, op a b s.flags = .error k)))) ∨
    ∃ a b res, f.wellFormed s.regs.length = true ∧ s.resolve f.mode f.src1 f.imm = .ok a ∧
      s.resolve f.mode f.src2 f.imm = .ok b ∧ op a b s.flags = .ok res ∧
      t = (s.writeBack f.dest res.r res.flags).forceZeroReg := by
  rcases s.settle_cases t _ h with ⟨u, hu, rfl⟩ | ⟨k, hk, rfl⟩
  · obtain ⟨_, hv, hu⟩ := bind_eq_ok_cases _ _ _ hu
    obtain ⟨a, ha, hu⟩ := bind_eq_ok_cases _ _ _ hu
    obtain ⟨b, hb, hu⟩ := bind_eq_ok_cases _ _ _ hu
    obtain ⟨res, hres, hu⟩ := bind_eq_ok_cases _ _ _ hu
    cases hu
    exact .inr ⟨a, b, res, (s.validate_ok_iff f).mp hv, ha, hb, hres, rfl⟩
  · refine .inl ⟨k, rfl, ?_⟩
    rcases bind_eq_error_cases _ _ _ hk with hv | ⟨_, hv, hk⟩
    · exact .inl hv
    have hf := (s.validate_ok_iff f).mp hv
    have hw := (f.wellFormed_iff _).mp hf
    have hm := (f.wellFormed_parts _ hf).2
    refine .inr ⟨hf, ?_⟩
    rcases bind_eq_error_cases _ _ _ hk with ha | ⟨a, -, hk⟩
    · exact .inl (s.resolve_error_cases f _ _ hw.2.1 hm ha)
    rcases bind_eq_error_cases _ _ _ hk with hb | ⟨b, -, hk⟩
    · exact .inl (s.resolve_error_cases f _ _ hw.2.2.1 hm hb)
    rcases bind_eq_error_cases _ _ _ hk with hop | ⟨_, -, hk⟩
    · exact .inr ⟨a, b, hop⟩
    · cases hk

/-- All that a one-operand instruction can do. -/
theorem execUnary_cases (op : Word → Flags → AluResult) (f : Fields) (s t : State)
    (h : execUnary op f s = .next t) :
    (∃ k, t = s.raise k ∧
      (s.validate f = .error k ∨ (f.wellFormed s.regs.length = true ∧ k = .outOfBounds))) ∨
    ∃ a, f.wellFormed s.regs.length = true ∧ s.resolve f.mode f.src1 f.imm = .ok a ∧
      t = (s.writeBack f.dest (op a s.flags).r (op a s.flags).flags).forceZeroReg := by
  rcases s.settle_cases t _ h with ⟨u, hu, rfl⟩ | ⟨k, hk, rfl⟩
  · obtain ⟨_, hv, hu⟩ := bind_eq_ok_cases _ _ _ hu
    obtain ⟨a, ha, hu⟩ := bind_eq_ok_cases _ _ _ hu
    cases hu
    exact .inr ⟨a, (s.validate_ok_iff f).mp hv, ha, rfl⟩
  · refine .inl ⟨k, rfl, ?_⟩
    rcases bind_eq_error_cases _ _ _ hk with hv | ⟨_, hv, hk⟩
    · exact .inl hv
    have hf := (s.validate_ok_iff f).mp hv
    refine .inr ⟨hf, ?_⟩
    rcases bind_eq_error_cases _ _ _ hk with ha | ⟨_, -, hk⟩
    · exact s.resolve_error_cases f _ _ ((f.wellFormed_iff _).mp hf).2.1 (f.wellFormed_parts _ hf).2 ha
    · cases hk

/-- All that STORE can do. -/
theorem execStore_cases (f : Fields) (s t : State) (h : execStore f s = .next t) :
    (∃ k, t = s.raise k ∧
      (s.validate f = .error k ∨ (f.wellFormed s.regs.length = true ∧ k = .outOfBounds))) ∨
    ∃ addr, f.wellFormed s.regs.length = true ∧ s.resolve f.mode f.dest f.imm = .ok addr ∧
      addr.toNat < s.memWords ∧
      t = State.forceZeroReg { s with mem := s.mem.setCell addr.toNat (s.readReg f.src1) } := by
  rcases s.settle_cases t _ h with ⟨u, hu, rfl⟩ | ⟨k, hk, rfl⟩
  · obtain ⟨_, hv, hu⟩ := bind_eq_ok_cases _ _ _ hu
    obtain ⟨addr, ha, hu⟩ := bind_eq_ok_cases _ _ _ hu
    obtain ⟨hlt, rfl⟩ := s.memWrite_cases _ _ _ hu
    exact .inr ⟨addr, (s.validate_ok_iff f).mp hv, ha, hlt, rfl⟩
  · refine .inl ⟨k, rfl, ?_⟩
    rcases bind_eq_error_cases _ _ _ hk with hv | ⟨_, hv, hk⟩
    · exact .inl hv
    have hf := (s.validate_ok_iff f).mp hv
    refine .inr ⟨hf, ?_⟩
    rcases bind_eq_error_cases _ _ _ hk with ha | ⟨addr, -, hk⟩
    · exact s.resolve_error_cases f _ _ ((f.wellFormed_iff _).mp hf).1 (f.wellFormed_parts _ hf).2 ha
    · unfold State.memWrite at hk
      split at hk <;> cases hk
      rfl

/-- All that JUMP can do. -/
theorem execJump_cases (f : Fields) (s t : State) (h : execJump f s = .next t) :
    (∃ k, t = s.raise k ∧
      (s.validate f = .error k ∨ (f.wellFormed s.regs.length = true ∧ k = .outOfBounds))) ∨
    ∃ target, f.wellFormed s.regs.length = true ∧ s.resolve f.mode f.src1 f.imm = .ok target ∧
      t = (s.setPc target).forceZeroReg := by
  rcases s.settle_cases t _ h with ⟨u, hu, rfl⟩ | ⟨k, hk, rfl⟩
  · obtain ⟨_, hv, hu⟩ := bind_eq_ok_cases _ _ _ hu
    obtain ⟨target, ha, hu⟩ := bind_eq_ok_cases _ _ _ hu
    cases hu
    exact .inr ⟨target, (s.validate_ok_iff f).mp hv, ha, rfl⟩
  · refine .inl ⟨k, rfl, ?_⟩
    rcases bind_eq_error_cases _ _ _ hk with hv | ⟨_, hv, hk⟩
    · exact .inl hv
    have hf := (s.validate_ok_iff f).mp hv
    refine .inr ⟨hf, ?_⟩
    rcases bind_eq_error_cases _ _ _ hk with ha | ⟨_, -, hk⟩
    · exact s.resolve_error_cases f _ _ ((f.wellFormed_iff _).mp hf).2.1 (f.wellFormed_parts _ hf).2 ha
    · cases hk

/-- All that HALT can do. -/
theorem execHalt_cases (f : Fields) (s t : State) (h : execHalt f s = .next t) :
    (∃ k, t = s.raise k ∧ s.validate f = .error k) ∨
    (f.wellFormed s.regs.length = true ∧ t = s.stop.forceZeroReg) := by
  rcases s.settle_cases t _ h with ⟨u, hu, rfl⟩ | ⟨k, hk, rfl⟩
  · obtain ⟨_, hv, hu⟩ := bind_eq_ok_cases _ _ _ hu
    cases hu
    exact .inr ⟨(s.validate_ok_iff f).mp hv, rfl⟩
  · refine .inl ⟨k, rfl, ?_⟩
    rcases bind_eq_error_cases _ _ _ hk with hv | ⟨_, -, hk⟩
    · exact hv
    · cases hk

/-- DIV's operation fails only with DivisionByZero. -/
theorem aluDiv_error_cases (a b : Word) (fl : Flags) (k : FaultKind) (h : aluDiv a b fl = .error k) :
    k = .divisionByZero := by
  unfold aluDiv at h
  split at h <;> cases h
  rfl

/-- All that any instruction can do: take a fault, or complete with a register write-back, a cell written, a
new `pc` or the end of the run, and then the zero-register step. -/
theorem exec_cases (i : Instr) (s t : State) (h : exec i s = .next t) :
    (∃ k, t = s.raise k ∧ FaultsBecause i s k) ∨
    (i.wellFormed s.regs.length = true ∧ ∃ u, t = State.forceZeroReg u ∧
      ((∃ r fl, u = s.writeBack i.fields.dest r fl) ∨
       (∃ f addr, i = .store f ∧ s.resolve f.mode f.dest f.imm = .ok addr ∧ addr.toNat < s.memWords ∧
          u = { s with mem := s.mem.setCell addr.toNat (s.readReg f.src1) }) ∨
       (∃ f target, i = .jump f ∧ s.resolve f.mode f.src1 f.imm = .ok target ∧ u = s.setPc target) ∨
       (∃ f, i = .halt f ∧ u = s.stop))) := by
  cases i with
  | store f =>
    rcases execStore_cases f s t h with ⟨k, ht, hv | ⟨hf, hk⟩⟩ | ⟨addr, hf, ha, hlt, rfl⟩
    · exact .inl ⟨k, ht, .inl hv⟩
    · exact .inl ⟨k, ht, .inr ⟨hf, .inl hk⟩⟩
    · exact .inr ⟨hf, _, rfl, .inr (.inl ⟨f, addr, rfl, ha, hlt, rfl⟩)⟩
  | jump f =>
    rcases execJump_cases f s t h with ⟨k, ht, hv | ⟨hf, hk⟩⟩ | ⟨target, hf, ha, rfl⟩
    · exact .inl ⟨k, ht, .inl hv⟩
    · exact .inl ⟨k, ht, .inr ⟨hf, .inl hk⟩⟩
    · exact .inr ⟨hf, _, rfl, .inr (.inr (.inl ⟨f, target, rfl, ha, rfl⟩))⟩
  | halt f =>
    rcases execHalt_cases f s t h with ⟨k, ht, hv⟩ | ⟨hf, rfl⟩
    · exact .inl ⟨k, ht, .inl hv⟩
    · exact .inr ⟨hf, _, rfl, .inr (.inr (.inr ⟨f, rfl, rfl⟩))⟩
  | load f | inc f | dec f | not f =>
    simp only [exec, execLoad, execInc, execDec, execNot] at h
    rcases execUnary_cases _ f s t h with ⟨k, ht, hv | ⟨hf, hk⟩⟩ | ⟨a, hf, -, rfl⟩
    · exact .inl ⟨k, ht, .inl hv⟩
    · exact .inl ⟨k, ht, .inr ⟨hf, .inl hk⟩⟩
    · exact .inr ⟨hf, _, rfl, .inl ⟨_, _, rfl⟩⟩
  | div f =>
    rcases execBinary_cases aluDiv f s t h with ⟨k, ht, hv | ⟨hf, hk | ⟨a, b, hk⟩⟩⟩ | ⟨a, b, res, hf, -, -, -, rfl⟩
    · exact .inl ⟨k, ht, .inl hv⟩
    · exact .inl ⟨k, ht, .inr ⟨hf, .inl hk⟩⟩
    · exact .inl ⟨k, ht, .inr ⟨hf, .inr ⟨aluDiv_error_cases _ _ _ _ hk, f, rfl⟩⟩⟩
    · exact .inr ⟨hf, _, rfl, .inl ⟨_, _, rfl⟩⟩
  | add f | sub f | mul f | and f | or f | xor f | shl f | shr f | rol f | ror f =>
    simp only [exec, execAdd, execSub, execMul, execAnd, execOr, execXor, execShl, execShr, execRol,
      execRor] at h
    rcases execBinary_cases _ f s t h with ⟨k, ht, hv | ⟨hf, hk | ⟨a, b, hk⟩⟩⟩ | ⟨a, b, res, hf, -, -, -, rfl⟩
    · exact .inl ⟨k, ht, .inl hv⟩
    · exact .inl ⟨k, ht, .inr ⟨hf, .inl hk⟩⟩
    · cases hk
    · exact .inr ⟨hf, _, rfl, .inl ⟨_, _, rfl⟩⟩

end Sys2Proof.Machine
end

