-- ==== Sys2Proof/Laws/Cycle.lean ====
section
/-! SUPPORT. What a step can do, said once. -/

namespace Sys2Proof.Machine

open Sys2Proof

/-- All that a step can do. -/
theorem step_cases (s t : State) (h : step s = .next t) :
    (s.runState = .ready ∧ t = s.enterRunning) ∨
    (s.runState = .running ∧ s.memWords ≤ s.pc.toNat ∧ t = s.stop) ∨
    (s.runState = .running ∧ s.pc.toNat < s.memWords ∧
      ((∃ i, decode (s.mem.getCell s.pc.toNat) = .ok i ∧ exec i s.fetch = .next t) ∨
       (∃ o, decode (s.mem.getCell s.pc.toNat) = .error (.unknownOpcode o) ∧
          t = s.fetch.raise .unknownOpcode))) := by
  unfold step advance at h
  split at h
  · next hr => cases h; exact .inl ⟨hr, rfl⟩
  · next hr =>
    unfold cycle at h
    split at h
    · next hp => cases h; exact .inr (.inl ⟨hr, hp, rfl⟩)
    · next hp =>
      refine .inr (.inr ⟨hr, by omega, ?_⟩)
      split at h
      · next i hd => exact .inl ⟨i, hd, h⟩
      · next o hd => cases h; exact .inr ⟨o, hd, rfl⟩
  · cases h
  · cases h

/-! ### Runs of several steps -/

@[simp] theorem runFor_zero (s : State) : runFor 0 s = .next s := rfl

/-- A run goes on from the next state of its first step. -/
theorem runFor_succ_of_next (k : Nat) (s u : State) (h : step s = .next u) :
    runFor (k + 1) s = runFor k u := by
  simp only [runFor, h]

/-- A run of `k + 1` steps that answers is a step and then a run of `k`. -/
theorem runFor_succ_cases (k : Nat) (s t : State) (h : runFor (k + 1) s = .next t) :
    ∃ u, step s = .next u ∧ runFor k u = .next t := by
  unfold runFor at h
  split at h
  · next u hu => exact ⟨u, hu, h⟩
  · cases h
  · cases h

/-- The machine's own runs are the host's. -/
theorem runFor_eq_core_run (k : Nat) (s : State) : Host.Core.run Sys2Proof.core k s = runFor k s := by
  induction k generalizing s with
  | zero => rfl
  | succ k ih =>
    refine (Host.Core.run.eq_2 Sys2Proof.core s k).trans ?_
    have hs : Sys2Proof.core.step s = step s := rfl
    rw [hs]
    unfold runFor
    cases step s with
    | next u => exact ih u
    | fault r => rfl
    | refused r => rfl

end Sys2Proof.Machine
end

