-- ==== Sys2Proof/Laws/PerInstr.lean ====
section
/-! SUPPORT. The encoder's arithmetic, and the one statement made per instruction: the opcode field of its word. -/

namespace Sys2Proof

/-- The word of six fields is the sum of 30_encoding.md rule R73. -/
theorem encodeRaw_toNat (r : RawInstr) :
    (encodeRaw r).toNat = r.opcode.toNat * 2 ^ 27 + r.fields.dest.toNat * 2 ^ 23 + r.fields.src1.toNat * 2 ^ 19
      + r.fields.src2.toNat * 2 ^ 15 + r.fields.mode.toNat * 2 ^ 11 + r.fields.imm.toNat := by
  have h1 := r.opcode.isLt
  have h2 := r.fields.dest.isLt
  have h3 := r.fields.src1.isLt
  have h4 := r.fields.src2.isLt
  have h5 := r.fields.mode.isLt
  have h6 := r.fields.imm.isLt
  simp only [encodeRaw, BitVec.toNat_append]
  rw [← Nat.shiftLeft_add_eq_or_of_lt h6, ← Nat.shiftLeft_add_eq_or_of_lt h5,
    ← Nat.shiftLeft_add_eq_or_of_lt h4, ← Nat.shiftLeft_add_eq_or_of_lt h3, ← Nat.shiftLeft_add_eq_or_of_lt h2]
  simp only [Nat.shiftLeft_eq]
  omega

namespace Laws

/-- The top five bits of an instruction's word are its opcode number (30_encoding.md rule R76). -/
def OpcodeField.Statement (i : Instr) : Prop := (encode i).toNat / 2 ^ 27 = i.opcode.toNat

/-- The statement holds of any instruction, by the tiling of the fields alone. -/
theorem opcodeField_of_any (i : Instr) : OpcodeField.Statement i := by
  have h2 := i.fields.dest.isLt
  have h3 := i.fields.src1.isLt
  have h4 := i.fields.src2.isLt
  have h5 := i.fields.mode.isLt
  have h6 := i.fields.imm.isLt
  unfold OpcodeField.Statement encode
  rw [encodeRaw_toNat]
  simp only
  omega

theorem OpcodeField.load (f : Fields) : OpcodeField.Statement (.load f) := opcodeField_of_any _

theorem OpcodeField.store (f : Fields) : OpcodeField.Statement (.store f) := opcodeField_of_any _

theorem OpcodeField.jump (f : Fields) : OpcodeField.Statement (.jump f) := opcodeField_of_any _

theorem OpcodeField.halt (f : Fields) : OpcodeField.Statement (.halt f) := opcodeField_of_any _

theorem OpcodeField.add (f : Fields) : OpcodeField.Statement (.add f) := opcodeField_of_any _

theorem OpcodeField.sub (f : Fields) : OpcodeField.Statement (.sub f) := opcodeField_of_any _

theorem OpcodeField.mul (f : Fields) : OpcodeField.Statement (.mul f) := opcodeField_of_any _

theorem OpcodeField.div (f : Fields) : OpcodeField.Statement (.div f) := opcodeField_of_any _

theorem OpcodeField.inc (f : Fields) : OpcodeField.Statement (.inc f) := opcodeField_of_any _

theorem OpcodeField.dec (f : Fields) : OpcodeField.Statement (.dec f) := opcodeField_of_any _

theorem OpcodeField.and (f : Fields) : OpcodeField.Statement (.and f) := opcodeField_of_any _

theorem OpcodeField.or (f : Fields) : OpcodeField.Statement (.or f) := opcodeField_of_any _

theorem OpcodeField.xor (f : Fields) : OpcodeField.Statement (.xor f) := opcodeField_of_any _

theorem OpcodeField.not (f : Fields) : OpcodeField.Statement (.not f) := opcodeField_of_any _

theorem OpcodeField.shl (f : Fields) : OpcodeField.Statement (.shl f) := opcodeField_of_any _

theorem OpcodeField.shr (f : Fields) : OpcodeField.Statement (.shr f) := opcodeField_of_any _

theorem OpcodeField.rol (f : Fields) : OpcodeField.Statement (.rol f) := opcodeField_of_any _

theorem OpcodeField.ror (f : Fields) : OpcodeField.Statement (.ror f) := opcodeField_of_any _

end Laws

end Sys2Proof
end

