-- ==== Sys2Proof/Tests/Slice0.lean ====
section
/-! SUPPORT. The model's own tests: each decoding from a word of the spec, vectors of 95_test_vectors.md by single
steps, the ill-formed terms each check refuses, and for every statement with hypotheses a state that meets them. -/

namespace Sys2Proof.Tests

open Sys2Proof Sys2Proof.Machine

/-! ### Helpers -/

/-- A Running core of the standard configuration with the first four registers set. -/
def running (r0 r1 r2 r3 : Word) : State :=
  { State.create Config.standard with regs := [r0, r1, r2, r3, 0, 0, 0, 0], runState := .running }

/-- The same with a cell set. -/
def withCell (s : State) (a : Nat) (v : Word) : State := { s with mem := s.mem.setCell a v }

/-- The next state of an outcome. -/
def nextOf (o : Host.Outcome State Fault Refusal) : Option State :=
  match o with
  | .next t => some t
  | .fault _ => none
  | .refused _ => none

/-- The state after the one step that fetches and runs a word placed at `pc`. -/
def ran (s : State) (w : Nat) : Option State := nextOf (step (s.withFetchWord 32 w))

/-- `x[2]` and the flags after a word of 95_test_vectors.md part 4, with `a = x[0]`, `b = x[1]`. -/
def alu (w : Nat) (a b : Word) : Option (Option Word × Flags) :=
  (ran (running a b 0 0) w).map fun t => (t.regs[2]?, t.flags)

/-- The fault kind and `fault_pc` after a word, if it faulted. -/
def faultOf (s : State) (w : Nat) : Option (FaultKind × Word) :=
  (ran s w).bind fun t =>
    if t.runState = .faulted then t.faultRecord.map fun r => (r.kind, r.pc) else none

/-- The first well-formed fields of the spec's vectors: dest 2, src1 0, src2 1, Register-Direct. -/
def rd : Fields := ⟨2, 0, 1, 1, 0⟩

/-! ### Decoding: one word an instruction, written out from the spec's encoding (30_encoding.md rules R71, R76) -/

theorem test_decode_load : decode 0b00000000100101001000110000000001 = .ok (.load ⟨1, 2, 9, 1, 1025⟩) := by decide

theorem test_decode_store : decode 0b00001010001110000001011001101010 = .ok (.store ⟨4, 7, 0, 2, 1642⟩) := by decide

theorem test_decode_jump : decode 0b00010011111000111001100011010011 = .ok (.jump ⟨7, 12, 7, 3, 211⟩) := by decide

theorem test_decode_halt : decode 0b00011101000011110010001100111100 = .ok (.halt ⟨10, 1, 14, 4, 828⟩) := by decide

theorem test_decode_add : decode 0b00100110101100101000010110100101 = .ok (.add ⟨13, 6, 5, 0, 1445⟩) := by decide

theorem test_decode_sub : decode 0b00101000010111100000100000001110 = .ok (.sub ⟨0, 11, 12, 1, 14⟩) := by decide

theorem test_decode_mul : decode 0b00110001100000011001001001110111 = .ok (.mul ⟨3, 0, 3, 2, 631⟩) := by decide

theorem test_decode_div : decode 0b00111011001011010001110011100000 = .ok (.div ⟨6, 5, 10, 3, 1248⟩) := by decide

theorem test_decode_inc : decode 0b01000100110100001010011101001001 = .ok (.inc ⟨9, 10, 1, 4, 1865⟩) := by decide

theorem test_decode_dec : decode 0b01001110011111000000000110110010 = .ok (.dec ⟨12, 15, 8, 0, 434⟩) := by decide

theorem test_decode_and : decode 0b01010111101001111000110000011011 = .ok (.and ⟨15, 4, 15, 1, 1051⟩) := by decide

theorem test_decode_or : decode 0b01011001010010110001011010000100 = .ok (.or ⟨2, 9, 6, 2, 1668⟩) := by decide

theorem test_decode_xor : decode 0b01100010111101101001100011101101 = .ok (.xor ⟨5, 14, 13, 3, 237⟩) := by decide

theorem test_decode_not : decode 0b01101100000110100010001101010110 = .ok (.not ⟨8, 3, 4, 4, 854⟩) := by decide

theorem test_decode_shl : decode 0b01110101110001011000010110111111 = .ok (.shl ⟨11, 8, 11, 0, 1471⟩) := by decide

theorem test_decode_shr : decode 0b01111111011010010000100000101000 = .ok (.shr ⟨14, 13, 2, 1, 40⟩) := by decide

theorem test_decode_rol : decode 0b10000000100101001001001010010001 = .ok (.rol ⟨1, 2, 9, 2, 657⟩) := by decide

theorem test_decode_ror : decode 0b10001010001110000001110011111010 = .ok (.ror ⟨4, 7, 0, 3, 1274⟩) := by decide

/-- 95_test_vectors.md part 2: opcode 18 is the first unknown one. -/
theorem test_decode_unknown_first : decode 0x90000000 = .error (.unknownOpcode 18) := by decide

/-- 95_test_vectors.md part 2. -/
theorem test_decode_unknown_last : decode 0xFFFFFFFF = .error (.unknownOpcode 31) := by decide

/-- 30_encoding.md rule R84: the word of `ADD.rd R2, R0, R1, #0`. -/
theorem test_encode_add : encode (.add ⟨2, 0, 1, 1, 0⟩) = 0x21008800 := by decide

theorem test_table_word_store : decodeTableWord 32 0x08000000 = some (.store ⟨0, 0, 0, 0, 0⟩) := by decide

/-! ### The checks refuse an ill-formed term (40_cycle_and_operands.md rules R96 and R97) -/

theorem test_illformed_dest : (Instr.add ⟨8, 0, 0, 1, 0⟩).wellFormed 8 = false := by decide

theorem test_illformed_src1 : (Instr.add ⟨0, 8, 0, 1, 0⟩).wellFormed 8 = false := by decide

theorem test_illformed_src2 : (Instr.not ⟨0, 0, 8, 1, 0⟩).wellFormed 8 = false := by decide

theorem test_illformed_mode : (Instr.halt ⟨0, 0, 0, 5, 0⟩).wellFormed 8 = false := by decide

theorem test_wellformed_edge : (Instr.halt ⟨7, 7, 7, 4, 2047⟩).wellFormed 8 = true := by decide

/-! ### Arithmetic, logic, shifts: rows of 95_test_vectors.md part 4 -/

theorem test_add_carry : alu 0x21008800 0xFFFFFFFF 1 = some (some 0, ⟨true, false, true, false⟩) := by decide

theorem test_add_overflow : alu 0x21008800 0x80000000 0xFFFFFFFF = some (some 0x7FFFFFFF, ⟨false, false, true, true⟩) := by decide

theorem test_sub_borrow : alu 0x29008800 3 5 = some (some 0xFFFFFFFE, ⟨false, true, true, false⟩) := by decide

theorem test_sub_overflow : alu 0x29008800 0x80000000 1 = some (some 0x7FFFFFFF, ⟨false, false, false, true⟩) := by decide

theorem test_mul_unsigned_overflow : alu 0x31008800 0xFFFFFFFF 0xFFFFFFFF = some (some 1, ⟨false, false, false, true⟩) := by decide

theorem test_mul_fits : alu 0x31008800 0x0000FFFF 0x00010001 = some (some 0xFFFFFFFF, ⟨false, true, false, false⟩) := by decide

theorem test_div_unsigned : alu 0x39008800 0xFFFFFFF9 2 = some (some 0x7FFFFFFC, ⟨false, false, false, false⟩) := by decide

theorem test_inc_ignores_src2 : alu 0x41008800 0x7FFFFFFF 0xDEADBEEF = some (some 0x80000000, ⟨false, true, false, true⟩) := by decide

theorem test_inc_carry : alu 0x41008800 0xFFFFFFFF 0 = some (some 0, ⟨true, false, true, false⟩) := by decide

theorem test_dec_borrow : alu 0x49008800 0 0xDEADBEEF = some (some 0xFFFFFFFF, ⟨false, true, true, false⟩) := by decide

theorem test_dec_overflow : alu 0x49008800 0x80000000 0 = some (some 0x7FFFFFFF, ⟨false, false, false, true⟩) := by decide

theorem test_and : alu 0x51008800 0xF0F0F0F0 0xFF00FF00 = some (some 0xF000F000, ⟨false, true, false, false⟩) := by decide

theorem test_or : alu 0x59008800 0x00001234 0x00004321 = some (some 0x00005335, ⟨false, false, false, false⟩) := by decide

theorem test_xor : alu 0x61008800 0xFFFF0000 0xFF00FF00 = some (some 0x00FFFF00, ⟨false, false, false, false⟩) := by decide

theorem test_not_ignores_src2 : alu 0x69008800 0x0000FFFF 0xDEADBEEF = some (some 0xFFFF0000, ⟨false, true, false, false⟩) := by decide

theorem test_shl_amount_33 : alu 0x71008800 1 0x21 = some (some 2, ⟨false, false, false, false⟩) := by decide

theorem test_shl_loses_high_bit : alu 0x71008800 0x80000001 1 = some (some 2, ⟨false, false, false, false⟩) := by decide

theorem test_shr_amount_32 : alu 0x79008800 0x80000000 0x20 = some (some 0x80000000, ⟨false, true, false, false⟩) := by decide

theorem test_shr_logical : alu 0x79008800 0xFFFFFFFF 4 = some (some 0x0FFFFFFF, ⟨false, false, false, false⟩) := by decide

theorem test_rol_amount_36 : alu 0x81008800 0x12345678 0x24 = some (some 0x23456781, ⟨false, false, false, false⟩) := by decide

theorem test_ror_amount_masked : alu 0x89008800 0x12345678 0xFFFFFFE4 = some (some 0x81234567, ⟨false, true, false, false⟩) := by decide

theorem test_ror_wraps : alu 0x89008800 1 1 = some (some 0x80000000, ⟨false, true, false, false⟩) := by decide

/-- Part 6 row F31: DivisionByZero, `x[2]` and the flags kept. -/
theorem test_div_by_zero :
    (ran { running 5 0 0x77 0 with flags := ⟨false, true, true, true⟩ } 0x39008800).map
        (fun t => (t.runState, t.faultRecord, t.regs[2]?, t.flags, t.pc)) =
      some (.faulted, some ⟨.divisionByZero, 1⟩, some 0x77, ⟨false, true, true, true⟩, 1) := by decide

/-- Part 4, sticky flags: MUL keeps C and writes V. -/
theorem test_mul_keeps_carry :
    (ran { running 6 3 0 0 with flags := ⟨false, false, true, true⟩ } 0x31008800).map (·.flags) =
      some ⟨false, false, true, false⟩ := by decide

/-! ### Transfers and control: rows of 95_test_vectors.md parts 3 and 5 -/

/-- Part 3, LOAD.mi: `Mem[x[1] + imm]`. -/
theorem test_load_memory_indirect :
    (ran (withCell (running 0 0x20 0 0) 0x30 0xBBBB0002) 0x01082010).map (fun t => (t.regs[2]?, t.flags.sign)) =
      some (some 0xBBBB0002, true) := by decide

/-- Part 2: the immediate is zero-extended. -/
theorem test_load_immediate_zero_extends :
    (ran (running 0 0 0 0) 0x000007FF).map (fun t => (t.regs[0]?, t.flags.sign)) =
      some (some 0x7FF, false) := by decide

/-- Part 3, STORE.rd: the address is `x[dest]`. -/
theorem test_store_register_direct :
    (ran (running 0 0x20 0 0xCAFEF00D) 0x08980810).map (fun t => (t.mem.getCell 0x20, t.mem.getCell 0x10)) =
      some (0xCAFEF00D, 0) := by decide

/-- Part 3, STORE.mi: the cell the resolver reads holds the address. -/
theorem test_store_memory_indirect :
    (ran (withCell (running 0 0x20 0 0xCAFEF00D) 0x30 0x50) 0x08982010).map (fun t => t.mem.getCell 0x50) =
      some 0xCAFEF00D := by decide

/-- Part 3, JUMP.ri: the target is `Mem[x[1]]`. -/
theorem test_jump_register_indirect :
    (ran (withCell (running 0 0x20 0 0) 0x20 0x30) 0x10081010).map (·.pc) = some 48 := by decide

/-- Part 5 row J7: a target past the end is not checked, and the next step halts cleanly. -/
theorem test_jump_past_end_halts :
    (ran (running 0 0 0 0) 0x100007FF).bind (fun t => (nextOf (step t)).map fun u => (t.pc, u.pc, u.runState)) =
      some (2047, 2047, .halted) := by decide

/-- Part 5 row H2: HALT resolves no operand. -/
theorem test_halt_ignores_fields :
    (ran (running 0 0 0 0) 0x1B9AA7FF).map (fun t => (t.runState, t.pc, t.ir)) =
      some (.halted, 1, 0x1B9AA7FF) := by decide

/-! ### Faults: rows of 95_test_vectors.md part 6 -/

/-- Row F4: the opcode check is first. -/
theorem test_fault_unknown_opcode : faultOf (running 0 0 0 0) 0x97FFF800 = some (.unknownOpcode, 1) := by decide

/-- Row F17: the register check wins over the mode check. -/
theorem test_fault_register_before_mode : faultOf (running 0 0 0 0) 0x27803800 = some (.invalidRegister, 1) := by
  decide

/-- Row F20: HALT's mode is checked. -/
theorem test_fault_halt_mode : faultOf (running 0 0 0 0) 0x18002800 = some (.invalidAddressingMode, 1) := by decide

/-- Row F33: the address sum does not wrap. -/
theorem test_fault_sum_not_wrapped : faultOf (running 0 0xFFFFFFFF 0 0) 0x00082001 = some (.outOfBounds, 1) := by
  decide

/-- Row F39: operand2's read fails before the zero test. -/
theorem test_fault_read_before_zero_divisor :
    faultOf (running 0x10 256 0 0) 0x39009000 = some (.outOfBounds, 1) := by decide

/-! ### Reset and the host operations -/

/-- From reset the first step is the host's Run and the second runs the zero word (30_encoding.md rule R82). -/
theorem test_run_from_reset :
    (nextOf (runFor 2 State.reset)).map (fun t => (t.runState, t.pc, t.flags.zero)) =
      some (.running, 1, true) := by decide

/-- 95_test_vectors.md program P8: an image of two words fits at 254, one of three does not. -/
theorem test_load_at_end :
    (State.reset.load [0x18000000, 2, 3] 254, match State.reset.load [0x18000000, 2] 254 with
      | .loaded t => some (t.mem.getCell 254, t.mem.getCell 255, t.pc)
      | .programTooLarge => none
      | .refused _ => none) = (.programTooLarge, some (0x18000000, 2, 254)) := by decide

theorem test_zero_register :
    (ran { running 0 0 0 0 with zeroReg := some 0 } 0x00000005).map (fun t => (t.regs[0]?, t.flags.zero)) =
      some (some 0, false) := by decide

/-! ### Witnesses: a state and operands that meet the hypotheses of each statement, at the edges of its clauses -/

/-- The edge of the unknown opcodes: 17 decodes, 18 does not. -/
theorem witness_unknown_opcode_edge :
    18 ≤ (0x90000000 : Word).toNat / 2 ^ 27 ∧ (decode 0x90000000).isOk = false ∧
      (0x8FFFFFFF : Word).toNat / 2 ^ 27 < 18 ∧ (decode 0x8FFFFFFF).isOk = true := by decide

theorem witness_encoderInverts_third_clause : decode 0x21008800 = .ok (.add rd) := by decide

/-- MemoryContract: the last cell, the first address past it, a load of the last cell, a fresh cell. -/
theorem witness_memoryContract_access :
    255 < (running 0 0 0 0).memWords ∧ (running 0 0 0 0).memWords ≤ 256 ∧
    (∃ t, State.reset.load [7] 255 = .loaded t) ∧ 255 < Config.standard.memWords :=
  ⟨by decide, by decide, ⟨_, rfl⟩, by decide⟩

/-- MemoryContract: failed reads by `src1`, by `src2` and by STORE's `dest`, and a STORE one past the last cell.
A STORE to the last cell is `witness_store`, a step that is no STORE `witness_not_a_store`. -/
theorem witness_memoryContract_failures :
    (⟨2, 0, 1, 2, 0⟩ : Fields).wellFormed (running 256 256 256 0).regs.length = true ∧
    (running 256 256 256 0).resolve 2 0 0 = .error .outOfBounds ∧
    (running 256 256 256 0).resolve 2 1 0 = .error .outOfBounds ∧
    (running 256 256 256 0).resolve 2 2 0 = .error .outOfBounds ∧
    rd.wellFormed (running 0 0 256 0).regs.length = true ∧
    (running 0 0 256 0).resolve rd.mode rd.dest rd.imm = .ok 256 ∧
    (running 0 0 256 0).memWords ≤ (256 : Word).toNat := by decide

/-- ResolverGivesOperandOfEachMode: a register whose cell is the last, and the address past it. -/
theorem witness_resolver :
    (running 255 256 0 0).regs[(0 : BitVec 4).toNat]? = some 255 ∧
    (running 255 256 0 0).regs[(1 : BitVec 4).toNat]? = some 256 := by decide

/-- RegisterFieldPastCountFaults: index 8 of 8 registers, and 16 registers. -/
theorem witness_register_field :
    (running 0 0 0 0).regs.length ≤ (Instr.add ⟨8, 0, 0, 1, 0⟩).fields.dest.toNat ∧
    16 ≤ (State.create { Config.standard with regCount := 16 }).regs.length ∧
    (State.create { Config.standard with regCount := 16 }).faultRecord = none := by decide

/-- UndefinedModeFaults: mode 5, the first undefined one. -/
theorem witness_undefined_mode :
    (Instr.halt ⟨7, 7, 7, 5, 0⟩).fields.dest.toNat < (running 0 0 0 0).regs.length ∧
    (Instr.halt ⟨7, 7, 7, 5, 0⟩).fields.src1.toNat < (running 0 0 0 0).regs.length ∧
    (Instr.halt ⟨7, 7, 7, 5, 0⟩).fields.src2.toNat < (running 0 0 0 0).regs.length ∧
    5 ≤ (Instr.halt ⟨7, 7, 7, 5, 0⟩).fields.mode.toNat := by decide

/-- UnknownOpcodeFaults: opcode 18 at the last cell of memory. -/
theorem witness_unknown_opcode_step :
    ({ withCell (running 0 0 0 0) 255 0x90000000 with pc := 255 }).fetches ∧
    18 ≤ ((withCell (running 0 0 0 0) 255 0x90000000).mem.getCell 255).toNat / 2 ^ 27 := by
  unfold State.fetches; decide

/-- FailedOperandReadFaults: the first operand, the second operand, the address of a STORE. -/
theorem witness_failed_operand :
    (⟨2, 0, 1, 2, 0⟩ : Fields).wellFormed (running 256 0 256 0).regs.length = true ∧
    (running 256 0 256 0).resolve 2 0 0 = .error .outOfBounds ∧
    (running 255 256 0 0).resolve 2 0 0 = .ok 0 ∧ (running 255 256 0 0).resolve 2 1 0 = .error .outOfBounds ∧
    (running 256 0 256 0).resolve 2 2 0 = .error .outOfBounds := by decide

/-- AbortedInstructionWritesNothing: an aborted one and a completed one. -/
theorem witness_aborted :
    (running 5 0 0 0).runState = .running ∧
    (nextOf (exec (.div rd) (running 5 0 0 0))).map (·.runState) = some .faulted ∧
    (nextOf (exec (.div rd) (running 5 1 0 0))).map (·.runState) = some .running ∧
    (running 5 0 0 0).twoOperands rd 5 0 := by
  unfold State.twoOperands; decide

/-- StepRunsDecodedInstruction and FetchLoadsIrAndAdvancesPc: an ADD in the last cell. -/
theorem witness_step :
    ({ withCell (running 1 2 0 0) 255 0x21008800 with pc := 255 }).fetches ∧
    decode ((withCell (running 1 2 0 0) 255 0x21008800).mem.getCell 255) = .ok (.add rd) ∧
    (running 1 2 0 0).memWords ≤ 2 ^ 32 - 1 := by
  unfold State.fetches; decide

/-- EndOfMemoryHaltsCleanly: `pc` exactly at the capacity. -/
theorem witness_end_of_memory :
    ({ running 0 0 0 0 with pc := 256 }).runState = .running ∧
    ({ running 0 0 0 0 with pc := 256 }).memWords ≤ ({ running 0 0 0 0 with pc := 256 }).pc.toNat := by decide

theorem witness_ready : State.reset.runState = .ready := by decide

/-- OutcomesOfAStep, RunStateOnlyMovesForward and FaultRecordIsSetOnlyByAFault: each run state, each way on. -/
theorem witness_run_states :
    (running 0 0 0 0).runState = .running ∧
    ({ running 0 0 0 0 with runState := .halted }).runState = .halted ∧
    ({ running 0 0 0 0 with runState := .faulted }).runState = .faulted ∧
    (nextOf (step State.reset)).map (·.runState) = some .running ∧
    (nextOf (step { running 0 0 0 0 with pc := 256 })).map (·.runState) = some .halted ∧
    (nextOf (step (withCell (running 0 0 0 0) 0 0x90000000))).map (·.runState) = some .faulted := by decide

/-- The two-operand results: operands read from registers, and a divisor of 0 and of 1. -/
theorem witness_two_operands :
    (running 5 10 0 0).twoOperands rd 5 10 ∧ (10 : Word) ≠ 0 ∧ (running 5 0 0 0).twoOperands rd 5 0 ∧
    (running 5 1 0 0).twoOperands rd 5 1 ∧ (1 : Word) ≠ 0 := by
  unfold State.twoOperands; decide

/-- The one-operand results: INC, DEC, NOT, LOAD and JUMP. -/
theorem witness_one_operand : (running 0xFFFFFFFF 0 0 0).oneOperand rd 0xFFFFFFFF := by
  unfold State.oneOperand; decide

/-- ShiftAmountIsModulo32: amounts 1 and 33 in a register, and amounts 5 and 37 as the immediate and in a
register. -/
theorem witness_shift_amount :
    (running 7 1 0 0).twoOperands rd 7 1 ∧ (running 7 33 0 0).twoOperands rd 7 (1 + 32) ∧
    (running 0 0 0 0).twoOperands ⟨2, 0, 1, 0, 5⟩ 5 5 ∧ (running 5 37 0 0).twoOperands rd 5 (5 + 32) ∧
    (⟨2, 0, 1, 0, 5⟩ : Fields).dest = rd.dest ∧ (running 7 33 0 0).flags = (running 7 1 0 0).flags ∧
    (running 5 37 0 0).flags = (running 0 0 0 0).flags ∧
    (running 7 33 0 0).zeroReg = (running 7 1 0 0).zeroReg := by
  unfold State.twoOperands; decide

/-- StoreResult: the last cell, and the address past it. -/
theorem witness_store :
    rd.wellFormed (running 9 0 255 0).regs.length = true ∧
    (running 9 0 255 0).resolve rd.mode rd.dest rd.imm = .ok 255 ∧
    (running 9 0 255 0).regs[rd.src1.toNat]? = some 9 ∧ (255 : Word).toNat < (running 9 0 255 0).memWords ∧
    (running 9 0 256 0).resolve rd.mode rd.dest rd.imm = .ok 256 ∧
    (running 9 0 256 0).memWords ≤ (256 : Word).toNat := by decide

/-- JumpResult: a target exactly at the capacity, and fields that have no operand. -/
theorem witness_jump :
    (running 256 0 0 0).oneOperand rd 256 ∧ (running 256 0 0 0).runState = .running ∧
    (running 256 0 0 0).memWords ≤ (256 : Word).toNat ∧
    ∀ target, ¬ (running 256 0 0 0).oneOperand ⟨8, 0, 0, 1, 0⟩ target :=
  ⟨by unfold State.oneOperand; decide, by decide, by decide, fun _ h => absurd h.1 (by decide)⟩

theorem witness_halt : (⟨7, 7, 7, 4, 2047⟩ : Fields).wellFormed (running 0 0 0 0).regs.length = true := by decide

/-- RegisterWritersFrame and FlagsFrame: one that completes and one that faults. -/
theorem witness_writers_frame :
    (∃ t, exec (.load rd) (running 5 10 0 0) = .next t ∧ t.runState ≠ .faulted) ∧
    ∃ t, exec (.div rd) (running 5 0 0 0) = .next t ∧ t.runState = .faulted :=
  ⟨⟨_, rfl, by decide⟩, ⟨_, rfl, rfl⟩⟩

/-- StoreJumpHaltFrame and FlagsFrame: each of the three, a STORE whose address resolves and one whose does not. -/
theorem witness_store_jump_halt_frame :
    (∃ t, exec (.store rd) (running 9 0 255 0) = .next t) ∧
    (running 9 0 255 0).resolve rd.mode rd.dest rd.imm = .ok 255 ∧
    (∃ t, exec (.jump rd) (running 9 0 0 0) = .next t) ∧ (∃ t, exec (.halt rd) (running 9 0 0 0) = .next t) ∧
    (∃ t, exec (.store ⟨2, 0, 1, 2, 0⟩) (running 9 0 256 0) = .next t) ∧
    (running 9 0 256 0).resolve 2 2 0 = .error .outOfBounds :=
  ⟨⟨_, rfl⟩, by decide, ⟨_, rfl⟩, ⟨_, rfl⟩, ⟨_, rfl⟩, by decide⟩

/-- ZeroRegisterIsForced: register 0 forced, and an instruction that writes it. -/
theorem witness_zero_register :
    ({ running 0 5 0 0 with zeroReg := some 0 }).zeroReg = some 0 ∧
    0 < ({ running 0 5 0 0 with zeroReg := some 0 }).regs.length ∧
    ({ running 0 5 0 0 with zeroReg := some 0 }).runState = .running ∧
    (∃ t, exec (.load ⟨0, 1, 0, 1, 0⟩) { running 0 5 0 0 with zeroReg := some 0 } = .next t ∧
      t.runState ≠ .faulted) ∧
    ({ running 0 5 0 0 with zeroReg := some 0 }).oneOperand ⟨0, 1, 0, 1, 0⟩ 5 :=
  ⟨by decide, by decide, by decide, ⟨_, rfl, by decide⟩, by unfold State.oneOperand; decide⟩

/-- The statements about Program load: an image that just does not fit, one that just fits, a state not Ready. -/
theorem witness_program_load :
    State.reset.runState = .ready ∧ State.reset.memWords < 254 + [(1 : Word), 2, 3].length ∧
    254 + [(1 : Word), 2].length ≤ State.reset.memWords ∧ State.reset.memWords ≤ 2 ^ 32 - 1 ∧
    (running 0 0 0 0).runState ≠ .ready := by decide

/-- HostOperationsByRunState: a range that ends at the last cell, and one past it. -/
theorem witness_inspection : 200 + 56 ≤ State.reset.memWords ∧ State.reset.memWords < 200 + 57 := by decide

theorem witness_legal_configuration :
    Config.standard.legal ∧ (Config.mk 1 1 none).legal ∧ (Config.mk (2 ^ 32 - 1) 16 (some 15)).legal := by decide

/-- The sample state satisfies the invariant. -/
theorem running_inv : (running 5 10 0 0).Inv where
  config_legal := by decide
  mem_wf := by decide
  mem_bounded := by decide
  record_agrees := by intro r h; cases h
  faulted_recorded := by decide
  zero_reg_reads_zero := by intro z h; cases h

/-- EveryStepKeepsInvariant, and the statements about runs: an invariant state that steps. -/
theorem witness_invariant_step : (running 5 10 0 0).Inv ∧ ∃ t, step (running 5 10 0 0) = .next t :=
  ⟨running_inv, _, rfl⟩

/-- The sample state, Ready, satisfies the invariant. -/
theorem ready_inv : ({ running 5 10 0 0 with runState := .ready } : State).Inv where
  config_legal := by decide
  mem_wf := by decide
  mem_bounded := by decide
  record_agrees := by intro r h; cases h
  faulted_recorded := by decide
  zero_reg_reads_zero := by intro z h; cases h

/-- ProgramLoadKeepsInvariant: the sample state, Ready, with an image that fits. -/
theorem witness_invariant_load :
    ({ running 5 10 0 0 with runState := .ready } : State).Inv ∧
    ∃ t, ({ running 5 10 0 0 with runState := .ready } : State).load [1, 2] 254 = .loaded t :=
  ⟨ready_inv, _, rfl⟩

theorem witness_run : ∃ t, runFor 3 State.reset = .next t := ⟨_, rfl⟩

/-- OnlyStoreChangesMemory: a step of an ADD. -/
theorem witness_not_a_store :
    (∃ t, step (withCell (running 1 2 0 0) 0 0x21008800) = .next t) ∧
    ∀ f, decode ((withCell (running 1 2 0 0) 0 0x21008800).mem.getCell 0) ≠ .ok (.store f) :=
  ⟨⟨_, rfl⟩, fun _ h => by cases h⟩

/-- RunsIgnoreFlagsSpAndIr: two states that differ in the flags, `sp` and `ir`. -/
theorem witness_same_visible :
    (running 5 10 0 0).sameVisible
      { running 5 10 0 0 with flags := ⟨true, true, true, true⟩, sp := 7, ir := 9 } := rfl

/-- NextFetchSeesTheStore: `STORE.rd` at cell 0 with `x[2]` the next cell. -/
theorem witness_self_modifying :
    (withCell (running 9 0 1 0) 0 0x09008800).fetches ∧
    decode ((withCell (running 9 0 1 0) 0 0x09008800).mem.getCell 0) = .ok (.store rd) ∧
    rd.wellFormed (withCell (running 9 0 1 0) 0 0x09008800).regs.length = true ∧
    (withCell (running 9 0 1 0) 0 0x09008800).fetched.resolve rd.mode rd.dest rd.imm = .ok 1 ∧
    (1 : Word).toNat < (withCell (running 9 0 1 0) 0 0x09008800).memWords ∧
    (withCell (running 9 0 1 0) 0 0x09008800).regs[rd.src1.toNat]? = some 9 ∧
    (1 : Word) = (withCell (running 9 0 1 0) 0 0x09008800).pc + 1 := by
  unfold State.fetches; decide

/-- ZeroedMemoryRunsToACleanEnd: a core three cells before the end, and one at the end. -/
theorem witness_zeroed_memory :
    ({ running 5 10 0 0 with pc := 253 }).config.legal ∧ ({ running 5 10 0 0 with pc := 253 }).runState = .running ∧
    ({ running 5 10 0 0 with pc := 253 }).pc.toNat < ({ running 5 10 0 0 with pc := 253 }).memWords ∧
    ({ running 5 10 0 0 with pc := 256 }).pc.toNat ≤ ({ running 5 10 0 0 with pc := 256 }).memWords ∧
    ∀ a, 253 ≤ a → a < 256 → ({ running 5 10 0 0 with pc := 253 }).mem.getCell a = 0 :=
  ⟨by decide, by decide, by decide, by decide, fun a _ _ => Memory.getCell_nil a⟩

end Sys2Proof.Tests
end

/-! # Proofs about the state (10_state.md)

Facts that serve several statements come first, one group per definition of the model; then each obligation. -/

section
namespace Sys2Proof.Machine

open Sys2Proof

/-! ### The fields of a fresh state -/

@[simp] theorem State.create_memWords (c : Config) : (State.create c).memWords = c.memWords := rfl

@[simp] theorem State.create_zeroReg (c : Config) : (State.create c).zeroReg = c.zeroReg := rfl

@[simp] theorem State.create_regs (c : Config) : (State.create c).regs = List.replicate c.regCount 0 := rfl

@[simp] theorem State.create_runState (c : Config) : (State.create c).runState = .ready := rfl

@[simp] theorem State.create_faultRecord (c : Config) : (State.create c).faultRecord = none := rfl

@[simp] theorem State.create_mem (c : Config) : (State.create c).mem = [] := rfl

/-- A fresh state has the configuration it was created with. -/
@[simp] theorem State.create_config (c : Config) : (State.create c).config = c := by
  simp [State.config]

/-- A fresh state of a legal configuration satisfies the invariant. -/
theorem State.create_inv (c : Config) (hc : c.legal) : (State.create c).Inv where
  config_legal := by simpa using hc
  mem_wf := State.create_mem_wf c
  mem_bounded := by simp
  record_agrees := by simp
  faulted_recorded := by simp
  zero_reg_reads_zero z hz := by
    obtain ⟨-, -, -, hlegal⟩ := hc
    simp [hlegal z hz]

theorem config_standard_legal : Config.standard.legal := by decide

/-! ### The configuration after each update -/

@[simp] theorem State.writeBack_config (s : State) (d : BitVec 4) (r : Word) (fl : Flags) :
    (s.writeBack d r fl).config = s.config := by simp [State.config]

@[simp] theorem State.setPc_config (s : State) (v : Word) : (s.setPc v).config = s.config := rfl

@[simp] theorem State.stop_config (s : State) : s.stop.config = s.config := rfl

@[simp] theorem State.fetch_config (s : State) : s.fetch.config = s.config := rfl

@[simp] theorem State.raise_config (s : State) (k : FaultKind) : (s.raise k).config = s.config := rfl

@[simp] theorem State.enterRunning_config (s : State) : s.enterRunning.config = s.config := rfl

@[simp] theorem State.forceZeroReg_config (s : State) : s.forceZeroReg.config = s.config := by
  simp [State.config]

/-- No instruction changes `sp` or the configuration. -/
theorem exec_keeps_sp_config (i : Instr) (s t : State) (h : exec i s = .next t) :
    t.sp = s.sp ∧ t.config = s.config := by
  rcases exec_cases i s t h with ⟨k, rfl, -⟩ | ⟨-, u, rfl, hu⟩
  · simp
  rcases hu with ⟨r, fl, rfl⟩ | ⟨f, addr, -, -, -, rfl⟩ | ⟨f, target, -, -, rfl⟩ | ⟨f, -, rfl⟩
  · simp
  · simp [State.config]
  · simp
  · simp

/-- No step changes `sp` or the configuration. -/
theorem step_keeps_sp_config (s t : State) (h : step s = .next t) :
    t.sp = s.sp ∧ t.config = s.config := by
  rcases step_cases s t h with ⟨-, rfl⟩ | ⟨-, -, rfl⟩ | ⟨-, -, ⟨i, -, hi⟩ | ⟨o, -, rfl⟩⟩
  · simp
  · simp
  · simpa using exec_keeps_sp_config i s.fetch t hi
  · simp

/-- A property that every step keeps holds at the end of every run. -/
theorem runFor_keeps {p : State → Prop} (hp : ∀ s t, p s → step s = .next t → p t)
    (k : Nat) (s t : State) (hs : p s) (h : runFor k s = .next t) : p t := by
  induction k generalizing s with
  | zero => cases h; exact hs
  | succ k ih =>
    obtain ⟨u, hu, ht⟩ := runFor_succ_cases k s t h
    exact ih u (hp s u hs hu) ht

/-! ### The run state and the fault record -/

/-- An instruction faults, or it keeps the fault record and leaves the run state as it was or Halted. -/
theorem exec_raises_or_keeps_record (i : Instr) (s t : State) (h : exec i s = .next t) :
    (∃ k, t = s.raise k) ∨
    ((t.runState = s.runState ∨ t.runState = .halted) ∧ t.faultRecord = s.faultRecord) := by
  rcases exec_cases i s t h with ⟨k, rfl, -⟩ | ⟨-, u, rfl, hu⟩
  · exact .inl ⟨k, rfl⟩
  refine .inr ?_
  rcases hu with ⟨r, fl, rfl⟩ | ⟨f, addr, -, -, -, rfl⟩ | ⟨f, target, -, -, rfl⟩ | ⟨f, -, rfl⟩
  · simp
  · simp
  · simp
  · simp

/-- A step starts the run, raises a fault in it, or goes on or halts with the fault record kept. -/
theorem step_starts_raises_or_keeps_record (s t : State) (h : step s = .next t) :
    (s.runState = .ready ∧ t = s.enterRunning) ∨
    (s.runState = .running ∧ ∃ u k, t = State.raise u k) ∨
    (s.runState = .running ∧ (t.runState = .running ∨ t.runState = .halted) ∧
      t.faultRecord = s.faultRecord) := by
  rcases step_cases s t h with hready | ⟨hr, -, rfl⟩ | ⟨hr, -, ⟨i, -, hi⟩ | ⟨o, -, rfl⟩⟩
  · exact .inl hready
  · exact .inr (.inr ⟨hr, by simp⟩)
  · rcases exec_raises_or_keeps_record i _ t hi with ⟨k, rfl⟩ | hkeep
    · exact .inr (.inl ⟨hr, _, k, rfl⟩)
    · exact .inr (.inr ⟨hr, by simpa [hr] using hkeep⟩)
  · exact .inr (.inl ⟨hr, _, _, rfl⟩)

/-- A Faulted machine has no step. -/
theorem step_of_faulted (s : State) (h : s.runState = .faulted) : step s = .fault .runFaulted := by
  simp only [step, advance, h]

/-- Run reports a Faulted machine with its record. -/
theorem State.runResult_of_faulted (s : State) (h : s.runState = .faulted) :
    s.runResult = some (.faulted, s.faultRecord) := by
  simp only [State.runResult, h]

/-- Run answers only in Ready, with the run entered. -/
theorem State.startRun_cases (s t : State) (h : s.startRun = .ok t) :
    s.runState = .ready ∧ t = s.enterRunning := by
  unfold State.startRun at h
  split at h
  · next hr => cases h; exact ⟨hr, rfl⟩
  · cases h

/-! ### What an instruction does to the flags

`g` reads the part of the flags in question: one flag, or several. -/

/-- A two-operand instruction keeps what its operation keeps of the flags. -/
theorem execBinary_keeps_flags {α : Type} (g : Flags → α)
    (op : Word → Word → Flags → Except FaultKind AluResult)
    (hop : ∀ a b fl res, op a b fl = .ok res → g res.flags = g fl) (f : Fields) (s t : State)
    (h : execBinary op f s = .next t) : g t.flags = g s.flags := by
  rcases execBinary_cases op f s t h with ⟨k, rfl, -⟩ | ⟨a, b, res, -, -, -, hres, rfl⟩
  · simp
  · simpa using hop a b s.flags res hres

/-- A one-operand instruction keeps what its operation keeps of the flags. -/
theorem execUnary_keeps_flags {α : Type} (g : Flags → α) (op : Word → Flags → AluResult)
    (hop : ∀ a fl, g (op a fl).flags = g fl) (f : Fields) (s t : State)
    (h : execUnary op f s = .next t) : g t.flags = g s.flags := by
  rcases execUnary_cases op f s t h with ⟨k, rfl, -⟩ | ⟨a, -, -, rfl⟩
  · simp
  · simpa using hop a s.flags

/-- C and V, the two flags that `setZS` keeps. -/
def Flags.carryOverflow (fl : Flags) : Bool × Bool := (fl.carry, fl.overflow)

@[simp] theorem AluResult.plain_carryOverflow (r : Word) (fl : Flags) :
    (AluResult.plain r fl).flags.carryOverflow = fl.carryOverflow := rfl

@[simp] theorem aluMul_carry (a b : Word) (fl : Flags) : (aluMul a b fl).flags.carry = fl.carry := rfl

/-- A division that answers keeps C and V. -/
theorem aluDiv_carryOverflow (a b : Word) (fl : Flags) (res : AluResult) (h : aluDiv a b fl = .ok res) :
    res.flags.carryOverflow = fl.carryOverflow := by
  unfold aluDiv at h
  split at h
  · cases h
  · cases h; rfl

/-- A two-operand instruction whose operation writes only Z and S keeps C and V. -/
theorem execBinary_plain_keeps_carryOverflow (r : Word → Word → Word) (f : Fields) (s t : State)
    (h : execBinary (fun a b fl => .ok (.plain (r a b) fl)) f s = .next t) :
    t.flags.carryOverflow = s.flags.carryOverflow :=
  execBinary_keeps_flags _ _ (fun a b fl _ hres => by cases hres; rfl) f s t h

/-- LOAD, DIV, the logical instructions, the shifts and the rotates keep C and V. -/
theorem exec_keeps_carryOverflow (f : Fields) (s t : State) (i : Instr)
    (hi : i ∈ [Instr.load f, .div f, .and f, .or f, .xor f, .not f, .shl f, .shr f, .rol f, .ror f])
    (h : exec i s = .next t) : t.flags.carryOverflow = s.flags.carryOverflow := by
  cases i with
  | store g | jump g | halt g | add g | sub g | mul g | inc g | dec g => simp at hi
  | load g => exact execUnary_keeps_flags _ AluResult.plain (by simp) g s t h
  | not g => exact execUnary_keeps_flags _ aluNot (fun a fl => AluResult.plain_carryOverflow _ fl) g s t h
  | div g => exact execBinary_keeps_flags _ aluDiv aluDiv_carryOverflow g s t h
  | and g | or g | xor g | shl g | shr g | rol g | ror g =>
    exact execBinary_plain_keeps_carryOverflow _ g s t h

/-- MUL keeps C (decision D10). -/
theorem exec_mul_keeps_carry (f : Fields) (s t : State) (h : exec (.mul f) s = .next t) :
    t.flags.carry = s.flags.carry :=
  execBinary_keeps_flags Flags.carry (fun a b fl => .ok (aluMul a b fl))
    (fun a b fl _ hres => by cases hres; exact aluMul_carry a b fl) f s t h

theorem exec_store_keeps_flags (f : Fields) (s t : State) (h : exec (.store f) s = .next t) :
    t.flags = s.flags := by
  rcases execStore_cases f s t h with ⟨k, rfl, -⟩ | ⟨addr, -, -, -, rfl⟩
  · simp
  · simp

theorem exec_jump_keeps_flags (f : Fields) (s t : State) (h : exec (.jump f) s = .next t) :
    t.flags = s.flags := by
  rcases execJump_cases f s t h with ⟨k, rfl, -⟩ | ⟨target, -, -, rfl⟩
  · simp
  · simp

theorem exec_halt_keeps_flags (f : Fields) (s t : State) (h : exec (.halt f) s = .next t) :
    t.flags = s.flags := by
  rcases execHalt_cases f s t h with ⟨k, rfl, -⟩ | ⟨-, rfl⟩
  · simp
  · simp

/-! ### States that differ only in the flags, `sp` and `ir`

First what such states share, then the updates that keep them so, then instructions, steps and runs. -/

section SameVisible

variable {s s' : State}

/-- A state that looks like `s` is `s` with other flags, `sp` and `ir`. -/
theorem State.sameVisible_iff : s.sameVisible s' ↔ ∃ fl sp ir, s' = { s with flags := fl, sp := sp, ir := ir } := by
  constructor
  · intro h; exact ⟨_, _, _, h⟩
  · rintro ⟨fl, sp, ir, rfl⟩; rfl

theorem State.sameVisible.memWords_eq (h : s.sameVisible s') : s'.memWords = s.memWords := by rw [h]

theorem State.sameVisible.pc_eq (h : s.sameVisible s') : s'.pc = s.pc := by rw [h]

theorem State.sameVisible.runState_eq (h : s.sameVisible s') : s'.runState = s.runState := by rw [h]

theorem State.sameVisible.mem_eq (h : s.sameVisible s') : s'.mem = s.mem := by rw [h]

/-- The checks give the same answer. -/
theorem State.sameVisible.validate_eq (h : s.sameVisible s') (f : Fields) : s'.validate f = s.validate f := by
  obtain ⟨fl, sp, ir, rfl⟩ := State.sameVisible_iff.mp h
  rfl

/-- The resolver gives the same answer. -/
theorem State.sameVisible.resolve_eq (h : s.sameVisible s') (mode r : BitVec 4) (imm : BitVec 11) :
    s'.resolve mode r imm = s.resolve mode r imm := by
  obtain ⟨fl, sp, ir, rfl⟩ := State.sameVisible_iff.mp h
  rfl

theorem State.sameVisible.readReg_eq (h : s.sameVisible s') (i : BitVec 4) : s'.readReg i = s.readReg i := by
  obtain ⟨fl, sp, ir, rfl⟩ := State.sameVisible_iff.mp h
  rfl

theorem State.sameVisible.writeBack (h : s.sameVisible s') (d : BitVec 4) (r : Word) (fl fl' : Flags) :
    (s.writeBack d r fl).sameVisible (s'.writeBack d r fl') := by
  obtain ⟨_, sp, ir, rfl⟩ := State.sameVisible_iff.mp h
  rfl

theorem State.sameVisible.setPc (h : s.sameVisible s') (v : Word) : (s.setPc v).sameVisible (s'.setPc v) := by
  obtain ⟨fl, sp, ir, rfl⟩ := State.sameVisible_iff.mp h
  rfl

theorem State.sameVisible.stop (h : s.sameVisible s') : s.stop.sameVisible s'.stop := by
  obtain ⟨fl, sp, ir, rfl⟩ := State.sameVisible_iff.mp h
  rfl

theorem State.sameVisible.fetch (h : s.sameVisible s') : s.fetch.sameVisible s'.fetch := by
  obtain ⟨fl, sp, ir, rfl⟩ := State.sameVisible_iff.mp h
  rfl

theorem State.sameVisible.raise (h : s.sameVisible s') (k : FaultKind) :
    (s.raise k).sameVisible (s'.raise k) := by
  obtain ⟨fl, sp, ir, rfl⟩ := State.sameVisible_iff.mp h
  rfl

theorem State.sameVisible.enterRunning (h : s.sameVisible s') : s.enterRunning.sameVisible s'.enterRunning := by
  obtain ⟨fl, sp, ir, rfl⟩ := State.sameVisible_iff.mp h
  rfl

theorem State.sameVisible.forceZeroReg (h : s.sameVisible s') : s.forceZeroReg.sameVisible s'.forceZeroReg := by
  obtain ⟨fl, sp, ir, rfl⟩ := State.sameVisible_iff.mp h
  simp only [State.forceZeroReg]
  split
  · rfl
  · rfl

/-- Two computations of the next state end alike: both in states that look the same, or both in one fault. -/
inductive EndAlike : Except FaultKind State → Except FaultKind State → Prop
  | ok {u u' : State} (h : u.sameVisible u') : EndAlike (.ok u) (.ok u')
  | error (k : FaultKind) : EndAlike (.error k) (.error k)

/-- Computations that begin with one and the same part and go on alike end alike. -/
theorem EndAlike.bind {α : Type} (x : Except FaultKind α) {g g' : α → Except FaultKind State}
    (h : ∀ a, EndAlike (g a) (g' a)) : EndAlike (x >>= g) (x >>= g') := by
  cases x with
  | ok a => exact h a
  | error k => exact .error k

/-- A write to memory ends alike. -/
theorem State.sameVisible.memWrite (h : s.sameVisible s') (a : Nat) (v : Word) :
    EndAlike (s.memWrite a v) (s'.memWrite a v) := by
  obtain ⟨fl, sp, ir, rfl⟩ := State.sameVisible_iff.mp h
  simp only [State.memWrite]
  split
  · exact .error _
  · exact .ok rfl

/-- Whenever the first outcome is a next state, so is the second, and the two look the same. -/
def Simulates (o o' : Host.Outcome State Fault Refusal) : Prop :=
  ∀ t, o = .next t → NextSatisfies o' fun t' => t.sameVisible t'

theorem Simulates.next {t t' : State} (h : t.sameVisible t') : Simulates (.next t) (.next t') := by
  intro u hu
  cases hu
  exact ⟨t', rfl, h⟩

/-- Computations that end alike settle alike. -/
theorem State.sameVisible.settle (h : s.sameVisible s') {x x' : Except FaultKind State} (hx : EndAlike x x') :
    Simulates (s.settle x) (s'.settle x') := by
  cases hx with
  | ok hu => exact .next hu.forceZeroReg
  | error k => exact .next (h.raise k)

/-- A two-operand operation whose value, or failure, does not depend on the flags. -/
def ValueIgnoresFlags (op : Word → Word → Flags → Except FaultKind AluResult) : Prop :=
  ∀ a b fl fl', (op a b fl).map AluResult.r = (op a b fl').map AluResult.r

theorem aluDiv_valueIgnoresFlags : ValueIgnoresFlags aluDiv := by
  intro a b fl fl'
  unfold aluDiv
  split
  · rfl
  · rfl

/-- The write-backs of an operation whose value does not depend on the flags end alike. -/
theorem ValueIgnoresFlags.writeBack {op : Word → Word → Flags → Except FaultKind AluResult}
    (hop : ValueIgnoresFlags op) (h : s.sameVisible s') (d : BitVec 4) (a b : Word) :
    EndAlike (op a b s.flags >>= fun res => pure (s.writeBack d res.r res.flags))
      (op a b s'.flags >>= fun res => pure (s'.writeBack d res.r res.flags)) := by
  have hr := hop a b s.flags s'.flags
  cases hx : op a b s.flags with
  | ok res =>
    cases hx' : op a b s'.flags with
    | ok res' =>
      rw [hx, hx'] at hr
      obtain hr : res.r = res'.r := Except.ok.inj hr
      have hw := h.writeBack d res'.r res.flags res'.flags
      exact .ok (hr ▸ hw)
    | error k => rw [hx, hx'] at hr; cases hr
  | error k =>
    cases hx' : op a b s'.flags with
    | ok res' => rw [hx, hx'] at hr; cases hr
    | error k' => rw [hx, hx'] at hr; cases hr; exact .error k

theorem State.sameVisible.execBinary (h : s.sameVisible s')
    {op : Word → Word → Flags → Except FaultKind AluResult} (hop : ValueIgnoresFlags op) (f : Fields) :
    Simulates (execBinary op f s) (execBinary op f s') := by
  refine h.settle ?_
  rw [h.validate_eq, h.resolve_eq, h.resolve_eq]
  exact .bind _ fun _ => .bind _ fun a => .bind _ fun b => hop.writeBack h f.dest a b

theorem State.sameVisible.execUnary (h : s.sameVisible s') {op : Word → Flags → AluResult}
    (hop : ∀ a fl fl', (op a fl).r = (op a fl').r) (f : Fields) :
    Simulates (execUnary op f s) (execUnary op f s') := by
  refine h.settle ?_
  rw [h.validate_eq, h.resolve_eq]
  refine .bind _ fun _ => .bind _ fun a => .ok ?_
  rw [hop a s.flags s'.flags]
  exact h.writeBack _ _ _ _

theorem State.sameVisible.execStore (h : s.sameVisible s') (f : Fields) :
    Simulates (execStore f s) (execStore f s') := by
  refine h.settle ?_
  rw [h.validate_eq, h.resolve_eq, h.readReg_eq]
  exact .bind _ fun _ => .bind _ fun addr => h.memWrite _ _

theorem State.sameVisible.execJump (h : s.sameVisible s') (f : Fields) :
    Simulates (execJump f s) (execJump f s') := by
  refine h.settle ?_
  rw [h.validate_eq, h.resolve_eq]
  exact .bind _ fun _ => .bind _ fun target => .ok (h.setPc target)

theorem State.sameVisible.execHalt (h : s.sameVisible s') (f : Fields) :
    Simulates (execHalt f s) (execHalt f s') := by
  refine h.settle ?_
  rw [h.validate_eq]
  exact .bind _ fun _ => .ok h.stop

/-- No instruction reads the flags, `sp` or `ir` for anything but the flags it writes. -/
theorem State.sameVisible.exec (h : s.sameVisible s') (i : Instr) : Simulates (exec i s) (exec i s') := by
  cases i with
  | store f => exact h.execStore f
  | jump f => exact h.execJump f
  | halt f => exact h.execHalt f
  | load f | inc f | dec f | not f => exact h.execUnary (fun _ _ _ => rfl) f
  | div f => exact h.execBinary aluDiv_valueIgnoresFlags f
  | add f | sub f | mul f | and f | or f | xor f | shl f | shr f | rol f | ror f =>
    simp only [Machine.exec, execAdd, execSub, execMul, execAnd, execOr, execXor, execShl, execShr, execRol,
      execRor]
    exact h.execBinary (fun _ _ _ _ => rfl) f

theorem State.sameVisible.cycle (h : s.sameVisible s') : Simulates (cycle s) (cycle s') := by
  unfold Machine.cycle
  rw [h.memWords_eq, h.pc_eq, State.fetch_ir, State.fetch_ir, h.mem_eq, h.pc_eq]
  split
  · exact .next h.stop
  · split
    · exact h.fetch.exec _
    · exact .next (h.fetch.raise _)

theorem State.sameVisible.step (h : s.sameVisible s') : Simulates (step s) (step s') := by
  unfold Machine.step advance
  rw [h.runState_eq]
  split
  · exact .next h.enterRunning
  · exact h.cycle
  · rintro t ⟨⟩
  · rintro t ⟨⟩

theorem State.sameVisible.runFor (h : s.sameVisible s') (k : Nat) : Simulates (runFor k s) (runFor k s') := by
  induction k generalizing s s' with
  | zero => exact .next h
  | succ k ih =>
    intro t ht
    obtain ⟨u, hu, hrun⟩ := runFor_succ_cases k s t ht
    obtain ⟨u', hu', huu'⟩ := h.step u hu
    rw [runFor_succ_of_next k s' u' hu']
    exact ih huu' t hrun

end SameVisible

/-! ### The obligations -/

/-- Settles O49: by induction on the length of the run, over the simulation of one step. -/
theorem runsIgnoreFlagsSpAndIr : Obligations.RunsIgnoreFlagsSpAndIr :=
  fun k _ _ t h ht => h.runFor k t ht

/-- Settles O19: a step starts the run, raises a fault in it, or goes on or halts. -/
theorem runStateOnlyMovesForward : Obligations.RunStateOnlyMovesForward := by
  intro s t h
  rcases step_starts_raises_or_keeps_record s t h with ⟨hs, rfl⟩ | ⟨hs, u, k, rfl⟩ | ⟨hs, ht, -⟩
  · exact .inl ⟨hs, rfl⟩
  · exact .inr ⟨hs, .inr (.inr rfl)⟩
  · exact .inr ⟨hs, ht.imp_right .inl⟩

/-- Settles O20: only a raise writes the record, and it ends the run. -/
theorem faultRecordIsSetOnlyByAFault : Obligations.FaultRecordIsSetOnlyByAFault := by
  refine ⟨fun c => ⟨rfl, rfl⟩, fun s t h => ?_, fun s t h => ?_⟩
  · rcases step_starts_raises_or_keeps_record s t h with ⟨-, rfl⟩ | ⟨-, u, k, rfl⟩ | ⟨-, ht, hrec⟩
    · exact .inl ⟨by simp, rfl⟩
    · have hf : (u.raise k).runState = .faulted := rfl
      refine .inr ⟨hf, ⟨k, rfl⟩, fun v hv => ?_, State.runResult_of_faulted _ hf⟩
      rw [step_of_faulted _ hf] at hv
      cases hv
    · refine .inl ⟨?_, hrec⟩
      rcases ht with ht | ht <;> simp [ht]
  · rcases h with ⟨ws, start, hload⟩ | hrun
    · obtain ⟨-, -, rfl⟩ := State.load_cases s t ws start hload
      rfl
    · obtain ⟨-, rfl⟩ := State.startRun_cases s t hrun
      rfl

/-- Settles O37: each group of instructions by what its operation keeps. -/
theorem flagsFrame : Obligations.FlagsFrame := by
  intro f s t
  refine ⟨fun i hi h => ?_, fun i hi h => ?_, fun i hi h => ?_⟩
  · by_cases hmul : i = .mul f
    · subst hmul
      exact exec_mul_keeps_carry f s t h
    · exact congrArg Prod.fst (exec_keeps_carryOverflow f s t i (by simpa [hmul] using hi) h)
  · exact congrArg Prod.snd (exec_keeps_carryOverflow f s t i hi h)
  · simp only [List.mem_cons, List.not_mem_nil, or_false] at hi
    rcases hi with rfl | rfl | rfl
    · exact exec_store_keeps_flags f s t h
    · exact exec_jump_keeps_flags f s t h
    · exact exec_halt_keeps_flags f s t h

/-- Settles O47: every step keeps them, so every run does. -/
theorem runsKeepSpAndConfiguration : Obligations.RunsKeepSpAndConfiguration := by
  intro k s t h
  refine runFor_keeps (p := fun u => u.sp = s.sp ∧ u.config = s.config) ?_ k s t ⟨rfl, rfl⟩ h
  rintro u v ⟨hsp, hconfig⟩ huv
  obtain ⟨hsp', hconfig'⟩ := step_keeps_sp_config u v huv
  exact ⟨hsp'.trans hsp, hconfig'.trans hconfig⟩

/-- Settles O40: the registers and the cells by the laws of lists and memory, the rest by definition. -/
theorem resetValues : Obligations.ResetValues := by
  refine ⟨fun c => ⟨by simp, rfl, rfl, fun n hn => by simp [hn], fun a => Memory.getCell_nil a, ?_⟩, rfl⟩
  exact ⟨rfl, rfl, rfl, rfl, rfl, rfl⟩

/-- Settles O44: field by field for any legal configuration, which the standard one is. -/
theorem freshStateSatisfiesInvariant : Obligations.FreshStateSatisfiesInvariant :=
  ⟨State.create_inv, State.create_inv _ config_standard_legal⟩

end Sys2Proof.Machine
end

/-! # Proofs about the memory (20_memory.md)

What each access, load and step does to a cell, and how the instructions fault on a failed access; then each
obligation. -/

section
namespace Sys2Proof.Machine

open Sys2Proof

/-! ### Reads after a change of state -/

/-- A read depends on the capacity and the cell alone. -/
theorem State.memRead_congr (s t : State) (b : Nat) (hw : t.memWords = s.memWords)
    (hb : t.mem.getCell b = s.mem.getCell b) : t.memRead b = s.memRead b := by
  simp only [State.memRead, hw, hb]

/-- A read below the capacity answers the cell. -/
theorem State.memRead_eq_ok (s : State) (a : Nat) (w : Word) (ha : a < s.memWords) (hw : s.mem.getCell a = w) :
    s.memRead a = .ok w := by
  rw [s.memRead_of_lt a ha, hw]

/-- A register that is there reads as it is listed. -/
theorem State.readReg_of_getElem? (s : State) (r : BitVec 4) (d : Word) (h : s.regs[r.toNat]? = some d) :
    s.readReg r = d := by
  simp [State.readReg, h]

/-- A write below the capacity sets its own cell and leaves every other. -/
theorem State.memWrite_spec (s : State) (a : Nat) (v : Word) (ha : a < s.memWords) :
    ∃ t, s.memWrite a v = .ok t ∧ t.memRead a = .ok v ∧ t = { s with mem := t.mem } ∧
      ∀ b, b ≠ a → t.memRead b = s.memRead b := by
  refine ⟨_, s.memWrite_of_lt a v ha, ?_, rfl, fun b hb => ?_⟩
  · exact State.memRead_eq_ok _ a v ha (Memory.getCell_setCell_same _ _ _)
  · exact State.memRead_congr _ _ b rfl (Memory.getCell_setCell_ne _ _ _ _ hb)

/-- Every cell of a fresh state reads 0. -/
theorem State.create_memRead (c : Config) (a : Nat) (ha : a < c.memWords) :
    (State.create c).memRead a = .ok 0 :=
  State.memRead_eq_ok _ a 0 ha (Memory.getCell_nil a)

/-- After Program load each cell of the image reads its word. -/
theorem State.load_memRead_image (s t : State) (ws : List Word) (start j : Nat) (w : Word)
    (h : s.load ws start = .loaded t) (hw : ws[j]? = some w) : t.memRead (start + j) = .ok w := by
  obtain ⟨-, hfit, rfl⟩ := s.load_cases t ws start h
  obtain ⟨hj, -⟩ := List.getElem?_eq_some_iff.mp hw
  have hin : start + j < s.memWords := by omega
  exact State.memRead_eq_ok _ _ w hin (Memory.getCell_setCells ws _ start j w hw)

/-- Program load leaves every cell outside the image. -/
theorem State.load_memRead_outside (s t : State) (ws : List Word) (start b : Nat)
    (h : s.load ws start = .loaded t) (hb : b < start ∨ start + ws.length ≤ b) :
    t.memRead b = s.memRead b := by
  obtain ⟨-, -, rfl⟩ := s.load_cases t ws start h
  exact State.memRead_congr _ _ b rfl (Memory.getCell_setCells_outside ws _ start b hb)

/-! ### Steps and memory -/

/-- An instruction that is no STORE keeps memory. -/
theorem exec_keeps_mem (i : Instr) (s t : State) (hi : ∀ f, i ≠ .store f) (h : exec i s = .next t) :
    t.mem = s.mem := by
  rcases exec_cases i s t h with ⟨k, rfl, -⟩ | ⟨-, u, rfl, hu⟩
  · simp
  rcases hu with ⟨r, fl, rfl⟩ | ⟨f, addr, hstore, -⟩ | ⟨f, target, -, -, rfl⟩ | ⟨f, -, rfl⟩
  · simp
  · exact absurd hstore (hi f)
  · simp
  · simp

/-- A step that runs no STORE keeps memory. -/
theorem step_keeps_mem (s t : State) (h : step s = .next t)
    (hns : s.runState = .running → ∀ f, decode (s.mem.getCell s.pc.toNat) ≠ .ok (.store f)) :
    t.mem = s.mem := by
  rcases step_cases s t h with ⟨-, rfl⟩ | ⟨-, -, rfl⟩ | ⟨hr, -, ⟨i, hdec, hi⟩ | ⟨o, -, rfl⟩⟩
  · simp
  · simp
  · refine exec_keeps_mem i s.fetch t ?_ hi
    rintro f rfl
    exact hns hr f hdec
  · simp

/-- A step that runs no STORE leaves every cell. -/
theorem step_keeps_memRead (s t : State) (h : step s = .next t)
    (hns : s.runState = .running → ∀ f, decode (s.mem.getCell s.pc.toNat) ≠ .ok (.store f)) (b : Nat) :
    t.memRead b = s.memRead b := by
  obtain ⟨-, hconfig⟩ := step_keeps_sp_config s t h
  exact State.memRead_congr s t b (congrArg Config.memWords hconfig) (by rw [step_keeps_mem s t h hns])

/-- A STORE to an address below the capacity writes `x[src1]` to that cell. -/
theorem exec_store_of_address (f : Fields) (s : State) (addr d : Word)
    (hf : f.wellFormed s.regs.length = true) (ha : s.resolve f.mode f.dest f.imm = .ok addr)
    (hd : s.regs[f.src1.toNat]? = some d) (hlt : addr.toNat < s.memWords) :
    exec (.store f) s = .next (State.forceZeroReg { s with mem := s.mem.setCell addr.toNat d }) :=
  calc exec (.store f) s
      = s.settle (s.memWrite addr.toNat (s.readReg f.src1)) := execStore_of_address f s addr hf ha
    _ = s.settle (.ok { s with mem := s.mem.setCell addr.toNat d }) := by
        rw [s.readReg_of_getElem? _ d hd, s.memWrite_of_lt _ d hlt]
    _ = .next (State.forceZeroReg { s with mem := s.mem.setCell addr.toNat d }) := State.settle_ok _ _

/-- A STORE to an address below the capacity sets its own cell and leaves every other. -/
theorem exec_store_memRead (f : Fields) (s : State) (addr d : Word)
    (hf : f.wellFormed s.regs.length = true) (ha : s.resolve f.mode f.dest f.imm = .ok addr)
    (hd : s.regs[f.src1.toNat]? = some d) (hlt : addr.toNat < s.memWords) :
    NextSatisfies (exec (.store f) s) fun t =>
      t.memRead addr.toNat = .ok d ∧ ∀ b, b ≠ addr.toNat → t.memRead b = s.memRead b := by
  refine ⟨_, exec_store_of_address f s addr d hf ha hd hlt, ?_, fun b hb => ?_⟩
  · exact State.memRead_eq_ok _ _ d (by simpa using hlt) (by simp)
  · exact State.memRead_congr _ _ b (by simp) (by simp [Memory.getCell_setCell_ne _ _ _ _ hb])

/-! ### Instructions whose access fails -/

/-- Taking the fault OutOfBounds records it and changes no cell. -/
theorem State.raise_outOfBounds_spec (s : State) :
    (s.raise .outOfBounds).runState = .faulted ∧
      (∃ r, (s.raise .outOfBounds).faultRecord = some r ∧ r.kind = .outOfBounds) ∧
      ∀ b, (s.raise .outOfBounds).memRead b = s.memRead b :=
  ⟨rfl, ⟨_, rfl, rfl⟩, fun b => State.memRead_congr s _ b rfl rfl⟩

/-- Each two-operand instruction is its operation between two reads and a write-back. -/
theorem exec_eq_execBinary (i : Instr) (f : Fields)
    (hi : i ∈ [Instr.add f, .sub f, .mul f, .div f, .and f, .or f, .xor f, .shl f, .shr f, .rol f, .ror f]) :
    ∃ op, ∀ s, exec i s = execBinary op f s := by
  simp only [List.mem_cons, List.not_mem_nil, or_false] at hi
  rcases hi with rfl | rfl | rfl | rfl | rfl | rfl | rfl | rfl | rfl | rfl | rfl
  all_goals simp only [exec, execAdd, execSub, execMul, execDiv, execAnd, execOr, execXor, execShl, execShr,
    execRol, execRor]
  all_goals exact ⟨_, fun _ => rfl⟩

/-- Each one-operand instruction that writes a register is its operation between a read and a write-back. -/
theorem exec_eq_execUnary (i : Instr) (f : Fields) (hi : i ∈ [Instr.load f, .inc f, .dec f, .not f]) :
    ∃ op, ∀ s, exec i s = execUnary op f s := by
  simp only [List.mem_cons, List.not_mem_nil, or_false] at hi
  rcases hi with rfl | rfl | rfl | rfl
  all_goals simp only [exec, execLoad, execInc, execDec, execNot]
  all_goals exact ⟨_, fun _ => rfl⟩

/-- A JUMP whose target read fails takes that fault. -/
theorem execJump_of_error (f : Fields) (s : State) (k : FaultKind) (hf : f.wellFormed s.regs.length = true)
    (ha : s.resolve f.mode f.src1 f.imm = .error k) : execJump f s = .next (s.raise k) := by
  unfold execJump
  rw [s.validate_bind f _ hf]
  exact s.settle_bind_error _ _ _ ha

section FailedAccess

variable {f : Fields} {s : State}

/-- A failed read of either operand ends OutOfBounds: no other kind can come before it, for the first operand
of a well-formed instruction fails only so. -/
theorem exec_of_failed_operand_of_two (hf : f.wellFormed s.regs.length = true) {i : Instr}
    (hi : i ∈ [Instr.add f, .sub f, .mul f, .div f, .and f, .or f, .xor f, .shl f, .shr f, .rol f, .ror f])
    (h : s.resolve f.mode f.src1 f.imm = .error .outOfBounds ∨
      s.resolve f.mode f.src2 f.imm = .error .outOfBounds) :
    exec i s = .next (s.raise .outOfBounds) := by
  obtain ⟨op, hop⟩ := exec_eq_execBinary i f hi
  rw [hop]
  rcases h with h1 | h2
  · exact execBinary_of_error_first op f s _ hf h1
  · cases h1 : s.resolve f.mode f.src1 f.imm with
    | ok a => exact execBinary_of_error_second op f s a _ hf h1 h2
    | error k =>
      obtain ⟨-, hsrc1, -, -⟩ := (f.wellFormed_iff _).mp hf
      obtain ⟨-, hmode⟩ := f.wellFormed_parts _ hf
      obtain rfl := s.resolve_error_cases f f.src1 k hsrc1 hmode h1
      exact execBinary_of_error_first op f s _ hf h1

/-- A failed read of the one operand takes that fault. -/
theorem exec_of_failed_operand (hf : f.wellFormed s.regs.length = true) {i : Instr} {k : FaultKind}
    (hi : i ∈ [Instr.load f, .inc f, .dec f, .not f, .jump f])
    (h : s.resolve f.mode f.src1 f.imm = .error k) : exec i s = .next (s.raise k) := by
  by_cases hjump : i = .jump f
  · subst hjump
    exact execJump_of_error f s k hf h
  · obtain ⟨op, hop⟩ := exec_eq_execUnary i f (by simpa [hjump] using hi)
    rw [hop]
    exact execUnary_of_error op f s k hf h

/-- A STORE ends OutOfBounds when its address read fails or its address is past the capacity. -/
theorem exec_store_of_failed_access (hf : f.wellFormed s.regs.length = true)
    (h : s.resolve f.mode f.dest f.imm = .error .outOfBounds ∨
      ∃ addr, s.resolve f.mode f.dest f.imm = .ok addr ∧ s.memWords ≤ addr.toNat) :
    exec (.store f) s = .next (s.raise .outOfBounds) := by
  rcases h with herr | ⟨addr, ha, hle⟩
  · exact execStore_of_error f s _ hf herr
  · refine (execStore_of_address f s addr hf ha).trans ?_
    rw [s.memWrite_of_le _ _ hle, State.settle_error]

end FailedAccess

/-! ### A cycle that fetches -/

/-- Settling answers with a next state, a fault being one too. -/
theorem State.settle_has_next (s : State) (r : Except FaultKind State) : ∃ t, s.settle r = .next t := by
  cases r with
  | ok u => exact ⟨_, rfl⟩
  | error k => exact ⟨_, rfl⟩

/-- Every instruction settles, so it has a next state. -/
theorem exec_has_next (i : Instr) (s : State) : ∃ t, exec i s = .next t := by
  cases i
  all_goals exact s.settle_has_next _

/-- No instruction changes `ir`. -/
theorem exec_keeps_ir (i : Instr) (s t : State) (h : exec i s = .next t) : t.ir = s.ir := by
  rcases exec_cases i s t h with ⟨k, rfl, -⟩ | ⟨-, u, rfl, hu⟩
  · simp
  rcases hu with ⟨r, fl, rfl⟩ | ⟨f, addr, -, -, -, rfl⟩ | ⟨f, target, -, -, rfl⟩ | ⟨f, -, rfl⟩
  · simp
  · simp
  · simp
  · simp

/-- A cycle that fetches the word of an instruction runs it on the state the fetch leaves. -/
theorem step_of_decode_ok (s : State) (i : Instr) (h : s.fetches)
    (hdec : decode (s.mem.getCell s.pc.toNat) = .ok i) : step s = exec i s.fetch := by
  obtain ⟨hr, hpc⟩ := h
  simp only [step, advance, hr, cycle, if_neg (Nat.not_le.mpr hpc), State.fetch_ir, hdec]

/-- A cycle that fetches a word of no instruction takes the fault UnknownOpcode. -/
theorem step_of_decode_error (s : State) (e : DecodeError) (h : s.fetches)
    (hdec : decode (s.mem.getCell s.pc.toNat) = .error e) : step s = .next (s.fetch.raise .unknownOpcode) := by
  obtain ⟨hr, hpc⟩ := h
  simp only [step, advance, hr, cycle, if_neg (Nat.not_le.mpr hpc), State.fetch_ir, hdec]

/-- A cycle that fetches leaves in `ir` the word its cell held at the fetch, whatever the word is. -/
theorem step_ir_of_fetches (s : State) (h : s.fetches) :
    NextSatisfies (step s) fun t => t.ir = s.mem.getCell s.pc.toNat := by
  cases hdec : decode (s.mem.getCell s.pc.toNat) with
  | ok i =>
    obtain ⟨t, ht⟩ := exec_has_next i s.fetch
    exact ⟨t, (step_of_decode_ok s i h hdec).trans ht, by simpa using exec_keeps_ir i s.fetch t ht⟩
  | error e => exact ⟨_, step_of_decode_error s e h hdec, by simp⟩

/-! ### The obligations -/

/-- Settles O6: the accesses, a fresh state, Program load, STORE, every other step, and the failed accesses. -/
theorem memoryContract : Obligations.MemoryContract := by
  refine ⟨fun s a v => ⟨fun hle => ?_, fun hlt => ?_⟩, State.create_memRead, fun s t ws start h => ⟨?_, ?_⟩,
    fun f s addr d hf ha hd hlt => ?_, step_keeps_memRead, fun f s hf => ⟨?_, ?_, ?_⟩⟩
  · exact ⟨s.memRead_of_le a hle, s.memWrite_of_le a v hle⟩
  · exact ⟨⟨_, s.memRead_of_lt a hlt⟩, s.memWrite_spec a v hlt⟩
  · exact fun j w hw => s.load_memRead_image t ws start j w h hw
  · exact fun b hb => s.load_memRead_outside t ws start b h hb
  · exact exec_store_memRead f s addr d hf ha hd hlt
  · exact fun i hi h => ⟨_, exec_of_failed_operand_of_two hf hi h, s.raise_outOfBounds_spec⟩
  · exact fun i hi h => ⟨_, exec_of_failed_operand hf hi h, s.raise_outOfBounds_spec⟩
  · exact fun h => ⟨_, exec_store_of_failed_access hf h, s.raise_outOfBounds_spec⟩

/-- Settles O50: the STORE sets the cell that the next cycle fetches, and no cycle that fetches changes `ir`
after the fetch. -/
theorem nextFetchSeesTheStore : Obligations.NextFetchSeesTheStore := by
  intro s f addr d hfetch hdec hf ha hlt hd
  have hstep := (step_of_decode_ok s _ hfetch hdec).trans (exec_store_of_address f s.fetch addr d hf ha hd hlt)
  refine ⟨_, hstep, by simp, ?_⟩
  rintro rfl
  obtain ⟨hrunning, -⟩ := hfetch
  obtain ⟨u, hu, hir⟩ := step_ir_of_fetches
    (State.forceZeroReg { s.fetch with mem := s.fetch.mem.setCell (s.pc + 1).toNat d })
    ⟨by simpa using hrunning, by simpa using hlt⟩
  exact ⟨u, hu, by simpa using hir⟩

end Sys2Proof.Machine
end

/-! # Proofs about the encoding (30_encoding.md)

The slices and their sum, the opcode map, the decoder; then the checks of the fields, the words of no instruction
and the zero word on a machine; then each obligation. -/

section
namespace Sys2Proof

/-! ### The six slices -/

theorem decodeRaw_opcode_toNat (w : Word) : (decodeRaw w).opcode.toNat = w.toNat / 2 ^ 27 := by
  have hw := w.isLt
  simp only [decodeRaw, BitVec.extractLsb'_toNat, Nat.shiftRight_eq_div_pow]
  omega

theorem decodeRaw_dest_toNat (w : Word) : (decodeRaw w).fields.dest.toNat = w.toNat / 2 ^ 23 % 2 ^ 4 := by
  simp only [decodeRaw, BitVec.extractLsb'_toNat, Nat.shiftRight_eq_div_pow]

theorem decodeRaw_src1_toNat (w : Word) : (decodeRaw w).fields.src1.toNat = w.toNat / 2 ^ 19 % 2 ^ 4 := by
  simp only [decodeRaw, BitVec.extractLsb'_toNat, Nat.shiftRight_eq_div_pow]

theorem decodeRaw_src2_toNat (w : Word) : (decodeRaw w).fields.src2.toNat = w.toNat / 2 ^ 15 % 2 ^ 4 := by
  simp only [decodeRaw, BitVec.extractLsb'_toNat, Nat.shiftRight_eq_div_pow]

theorem decodeRaw_mode_toNat (w : Word) : (decodeRaw w).fields.mode.toNat = w.toNat / 2 ^ 11 % 2 ^ 4 := by
  simp only [decodeRaw, BitVec.extractLsb'_toNat, Nat.shiftRight_eq_div_pow]

theorem decodeRaw_imm_toNat (w : Word) : (decodeRaw w).fields.imm.toNat = w.toNat % 2 ^ 11 := by
  simp only [decodeRaw, BitVec.extractLsb'_toNat, Nat.shiftRight_zero]

/-- The six slices tile the word: their sum (30_encoding.md rule R73) is the word. -/
theorem encodeRaw_decodeRaw (w : Word) : encodeRaw (decodeRaw w) = w := by
  apply BitVec.eq_of_toNat_eq
  rw [encodeRaw_toNat, decodeRaw_opcode_toNat, decodeRaw_dest_toNat, decodeRaw_src1_toNat,
    decodeRaw_src2_toNat, decodeRaw_mode_toNat, decodeRaw_imm_toNat]
  omega

/-- Field tuples with the same six numbers are the same. -/
theorem RawInstr.eq_of_toNat_eq {r r' : RawInstr} (hopcode : r.opcode.toNat = r'.opcode.toNat)
    (hdest : r.fields.dest.toNat = r'.fields.dest.toNat) (hsrc1 : r.fields.src1.toNat = r'.fields.src1.toNat)
    (hsrc2 : r.fields.src2.toNat = r'.fields.src2.toNat) (hmode : r.fields.mode.toNat = r'.fields.mode.toNat)
    (himm : r.fields.imm.toNat = r'.fields.imm.toNat) : r = r' := by
  obtain ⟨opcode, dest, src1, src2, mode, imm⟩ := r
  obtain ⟨opcode', dest', src1', src2', mode', imm'⟩ := r'
  simp only [BitVec.toNat_inj] at hopcode hdest hsrc1 hsrc2 hmode himm
  subst hopcode hdest hsrc1 hsrc2 hmode himm
  rfl

/-- Each field is narrower than its slice's place value, so the slices of the sum are the fields. -/
theorem decodeRaw_encodeRaw (r : RawInstr) : decodeRaw (encodeRaw r) = r := by
  have hdest := r.fields.dest.isLt
  have hsrc1 := r.fields.src1.isLt
  have hsrc2 := r.fields.src2.isLt
  have hmode := r.fields.mode.isLt
  have himm := r.fields.imm.isLt
  apply RawInstr.eq_of_toNat_eq
  · rw [decodeRaw_opcode_toNat, encodeRaw_toNat]; omega
  · rw [decodeRaw_dest_toNat, encodeRaw_toNat]; omega
  · rw [decodeRaw_src1_toNat, encodeRaw_toNat]; omega
  · rw [decodeRaw_src2_toNat, encodeRaw_toNat]; omega
  · rw [decodeRaw_mode_toNat, encodeRaw_toNat]; omega
  · rw [decodeRaw_imm_toNat, encodeRaw_toNat]; omega

/-! ### The opcode map -/

/-- The opcode map finds every instruction by its own number. -/
@[simp] theorem Instr.ofOpcode_opcode (i : Instr) : Instr.ofOpcode i.opcode i.fields = some i := by
  cases i
  all_goals rfl

/-- What the opcode map finds has the number and the fields it was asked for. -/
theorem Instr.opcode_fields_of_ofOpcode (o : BitVec 5) (f : Fields) (i : Instr)
    (h : Instr.ofOpcode o f = some i) : i.opcode = o ∧ i.fields = f := by
  unfold Instr.ofOpcode at h
  split at h
  case h_19 => cases h
  all_goals
    next ho =>
      cases h
      exact ⟨(BitVec.eq_of_toNat_eq ho).symm, rfl⟩

/-- The opcode map finds nothing exactly for the numbers from 18 on (30_encoding.md rule R78). -/
theorem Instr.ofOpcode_eq_none_iff (o : BitVec 5) (f : Fields) :
    Instr.ofOpcode o f = none ↔ 18 ≤ o.toNat := by
  constructor
  · intro h
    unfold Instr.ofOpcode at h
    split at h
    case h_19 => grind
    all_goals cases h
  · intro ho
    cases h : Instr.ofOpcode o f with
    | none => rfl
    | some i =>
      obtain ⟨rfl, -⟩ := Instr.opcode_fields_of_ofOpcode o f i h
      cases i
      all_goals exact absurd ho (by simp [Instr.opcode])

/-! ### The decoder -/

/-- A word decodes to what the opcode map finds for its slices. -/
theorem decode_eq_ok_iff (w : Word) (i : Instr) :
    decode w = .ok i ↔ Instr.ofOpcode (decodeRaw w).opcode (decodeRaw w).fields = some i := by
  unfold decode
  cases h : Instr.ofOpcode (decodeRaw w).opcode (decodeRaw w).fields with
  | some j => simp [h]
  | none => simp [h]

/-- A word is rejected, by its opcode field, when that is 18 or more. -/
theorem decode_eq_error_iff (w : Word) (o : BitVec 5) :
    decode w = .error (.unknownOpcode o) ↔ 18 ≤ w.toNat / 2 ^ 27 ∧ o = (decodeRaw w).opcode := by
  rw [← decodeRaw_opcode_toNat, ← Instr.ofOpcode_eq_none_iff _ (decodeRaw w).fields]
  unfold decode
  cases h : Instr.ofOpcode (decodeRaw w).opcode (decodeRaw w).fields with
  | some i => simp [h]
  | none => simp [h, eq_comm]

theorem decode_encode (i : Instr) : decode (encode i) = .ok i := by
  rw [decode_eq_ok_iff, encode, decodeRaw_encodeRaw]
  exact i.ofOpcode_opcode

/-- A word that decodes is the word of its instruction. -/
theorem encode_of_decode (w : Word) (i : Instr) (h : decode w = .ok i) : encode i = w := by
  obtain ⟨hopcode, hfields⟩ := Instr.opcode_fields_of_ofOpcode _ _ i ((decode_eq_ok_iff w i).mp h)
  calc encode i = encodeRaw (decodeRaw w) := by rw [encode, hopcode, hfields]
    _ = w := encodeRaw_decodeRaw w

end Sys2Proof

namespace Sys2Proof.Machine

open Sys2Proof

/-! ### The checks of the fields -/

/-- The register check fails exactly when one of the three fields is at or above the register count. -/
theorem registersValid_eq_false_iff (n : Nat) (f : Fields) :
    f.registersValid n = false ↔ n ≤ f.dest.toNat ∨ n ≤ f.src1.toNat ∨ n ≤ f.src2.toNat := by
  simp only [Fields.registersValid, Bool.and_eq_false_iff, decide_eq_false_iff_not, Nat.not_lt, or_assoc]

/-- A failed register check raises InvalidRegister, whatever the mode. -/
theorem State.validate_of_registers_invalid (s : State) (f : Fields)
    (hr : f.registersValid s.regs.length = false) : s.validate f = .error .invalidRegister := by
  simp [State.validate, hr]

/-- Valid registers and an undefined mode raise InvalidAddressingMode. -/
theorem State.validate_of_mode_invalid (s : State) (f : Fields)
    (hr : f.registersValid s.regs.length = true) (hm : f.modeValid = false) :
    s.validate f = .error .invalidAddressingMode := by
  simp [State.validate, hr, hm]

/-- An instruction takes a fault for one of the reasons there are, or it keeps the fault record. -/
theorem exec_faults_because_or_keeps_record (i : Instr) (s t : State) (h : exec i s = .next t) :
    (∃ k, t = s.raise k ∧ FaultsBecause i s k) ∨ t.faultRecord = s.faultRecord := by
  rcases exec_cases i s t h with hfault | ⟨-, u, rfl, hu⟩
  · exact .inl hfault
  refine .inr ?_
  rcases hu with ⟨r, fl, rfl⟩ | ⟨f, addr, -, -, -, rfl⟩ | ⟨f, target, -, -, rfl⟩ | ⟨f, -, rfl⟩
  · simp
  · simp
  · simp
  · simp

/-- InvalidRegister has only one reason, a register field at or above the register count; a field has four bits,
so the count is then below 16. -/
theorem FaultsBecause.regs_length_lt (i : Instr) (s : State) (h : FaultsBecause i s .invalidRegister) :
    s.regs.length < 16 := by
  rcases h with hcheck | ⟨-, hkind | ⟨hkind, -⟩⟩
  · rcases s.validate_error_cases _ _ hcheck with ⟨hr, -⟩ | ⟨-, -, hkind⟩
    · have hdest := i.fields.dest.isLt
      have hsrc1 := i.fields.src1.isLt
      have hsrc2 := i.fields.src2.isLt
      rw [registersValid_eq_false_iff] at hr
      omega
    · cases hkind
  · cases hkind
  · cases hkind

/-! ### The zero word (30_encoding.md rule R82) -/

/-- The zero word is `LOAD x[0], #0` (decision D22). -/
theorem decode_zero : decode 0 = .ok (.load ⟨0, 0, 0, 0, 0⟩) := by decide

/-- What `LOAD x[0], #0` does where there is a register 0. -/
theorem exec_load_zero (s : State) (hregs : 0 < s.regs.length) :
    exec (.load ⟨0, 0, 0, 0, 0⟩) s = .next (s.writeBack 0 0 (s.flags.setZS 0)).forceZeroReg := by
  have hf : (⟨0, 0, 0, 0, 0⟩ : Fields).wellFormed s.regs.length = true := by simp [Fields.wellFormed_iff, hregs]
  have ha : s.resolve 0 0 0 = .ok 0 := s.resolve_of_valid 0 0 0 .immediate hregs rfl
  exact execUnary_of_operand AluResult.plain _ s 0 hf ha

/-- Register 0 reads 0 once 0 is written to it, whichever register is the zero register. -/
theorem State.writeBack_zero_forceZeroReg_getElem? (s : State) (fl : Flags) (hregs : 0 < s.regs.length) :
    (s.writeBack 0 0 fl).forceZeroReg.regs[0]? = some 0 := by
  by_cases hz : s.zeroReg = some 0
  · exact State.forceZeroReg_getElem?_zero _ 0 (by simpa using hz) (by simpa using hregs)
  · rw [State.forceZeroReg_getElem?_ne _ 0 (by simpa using hz)]
    simp [hregs]

/-- A Running core at or past the end of memory halts. -/
theorem step_of_end_of_memory (s : State) (hr : s.runState = .running) (hpc : s.memWords ≤ s.pc.toNat) :
    step s = .next s.stop := by
  simp only [step, advance, hr, cycle, if_pos hpc]

/-- A core that runs over zeroed cells: legal, Running, `pc` at most the capacity, every cell from `pc` on 0. -/
structure State.OverZeros (s : State) : Prop where
  legal : s.config.legal
  running : s.runState = .running
  pc_le : s.pc.toNat ≤ s.memWords
  zero : ∀ a, s.pc.toNat ≤ a → a < s.memWords → s.mem.getCell a = 0

/-- A step over a zeroed cell goes on to the next one, with `x[0]` cleared and the fault record and memory kept. -/
theorem State.OverZeros.step {s : State} (h : s.OverZeros) (hlt : s.pc.toNat < s.memWords) :
    NextSatisfies (step s) fun u => u.OverZeros ∧ u.pc.toNat = s.pc.toNat + 1 ∧ u.memWords = s.memWords ∧
      u.faultRecord = s.faultRecord ∧ u.mem = s.mem ∧ u.regs[0]? = some 0 := by
  obtain ⟨-, hcap, hregs, -⟩ : s.config.legal := h.legal
  change s.memWords ≤ 2 ^ 32 - 1 at hcap
  change 0 < s.regs.length at hregs
  have hdec : decode (s.mem.getCell s.pc.toNat) = .ok (.load ⟨0, 0, 0, 0, 0⟩) := by
    rw [h.zero _ le_rfl hlt]; exact decode_zero
  have hpc : (s.pc + 1).toNat = s.pc.toNat + 1 := by bv_omega
  refine ⟨_, (step_of_decode_ok s _ ⟨h.running, hlt⟩ hdec).trans (exec_load_zero s.fetch hregs),
    ⟨?_, ?_, ?_, fun a ha hlt => ?_⟩, ?_, ?_, ?_, ?_, ?_⟩
  · simpa using h.legal
  · simpa using h.running
  · simp only [State.forceZeroReg_pc, State.writeBack_pc, State.fetch_pc, hpc, State.forceZeroReg_memWords,
      State.writeBack_memWords, State.fetch_memWords]
    omega
  · simp only [State.forceZeroReg_pc, State.writeBack_pc, State.fetch_pc, hpc] at ha
    simpa using h.zero a (by omega) (by simpa using hlt)
  · simpa using hpc
  · simp
  · simp
  · simp
  · exact s.fetch.writeBack_zero_forceZeroReg_getElem? _ hregs

/-- How a run over zeroed cells ends: Halted at the end of memory, with the fault record and memory kept; and
`x[0]` reads 0 if a cell was run or it read 0 before. -/
structure EndsCleanly (s t : State) : Prop where
  halted : t.runState = .halted
  pc_eq : t.pc.toNat = s.memWords
  faultRecord_eq : t.faultRecord = s.faultRecord
  mem_eq : t.mem = s.mem
  reg_zero : s.pc.toNat < s.memWords ∨ s.regs[0]? = some 0 → t.regs[0]? = some 0

/-- A core over `k` zeroed cells ends cleanly after one step a cell and the step that halts. -/
theorem State.OverZeros.runFor {s : State} (h : s.OverZeros) (k : Nat) (hk : s.pc.toNat + k = s.memWords) :
    NextSatisfies (runFor (k + 1) s) (EndsCleanly s) := by
  induction k generalizing s with
  | zero =>
    have hstop := step_of_end_of_memory s h.running (by omega)
    refine ⟨s.stop, runFor_succ_of_next 0 s _ hstop, rfl, ?_, rfl, rfl, fun hreg => ?_⟩
    · simpa using hk
    · exact hreg.resolve_left (by omega)
  | succ k ih =>
    obtain ⟨u, hstep, hu, hpc, hcap, hrec, hmem, hreg⟩ := h.step (by omega)
    obtain ⟨t, ht, hend⟩ := ih hu (by omega)
    refine ⟨t, (runFor_succ_of_next (k + 1) s u hstep).trans ht, hend.halted, hend.pc_eq.trans hcap,
      hend.faultRecord_eq.trans hrec, hend.mem_eq.trans hmem, fun _ => hend.reg_zero (.inr hreg)⟩

/-! ### The obligations -/

/-- Settles O1: the slices of the sum are the fields, and the opcode map finds the instruction by its number. -/
theorem decodeOfEncodeIsTheInstruction : Obligations.DecodeOfEncodeIsTheInstruction := decode_encode

/-- Settles O2: the two directions on the slices, and the decoder's inversion. -/
theorem encoderInvertsDecoderOnEveryWord : Obligations.EncoderInvertsDecoderOnEveryWord :=
  ⟨encodeRaw_decodeRaw, decodeRaw_encodeRaw, encode_of_decode⟩

/-- Settles O3: slice by slice. -/
theorem decoderSlicesSixFields : Obligations.DecoderSlicesSixFields := fun w =>
  ⟨decodeRaw_opcode_toNat w, decodeRaw_dest_toNat w, decodeRaw_src1_toNat w, decodeRaw_src2_toNat w,
    decodeRaw_mode_toNat w, decodeRaw_imm_toNat w⟩

/-- Settles O5: the opcode map finds nothing exactly from 18 on, and the decoder then names the slice. -/
theorem decoderRejectsExactlyUnknownOpcodes : Obligations.DecoderRejectsExactlyUnknownOpcodes := by
  refine fun w => ⟨⟨fun h => ?_, ?_⟩, fun o h => ?_⟩
  · exact ⟨_, (decode_eq_error_iff w _).mpr ⟨h, rfl⟩⟩
  · rintro ⟨o, h⟩
    obtain ⟨hge, -⟩ := (decode_eq_error_iff w o).mp h
    exact hge
  · obtain ⟨-, rfl⟩ := (decode_eq_error_iff w o).mp h
    exact decodeRaw_opcode_toNat w

/-- Settles O8: the register check is the first of every instruction, and the only source of the fault. -/
theorem registerFieldPastCountFaults : Obligations.RegisterFieldPastCountFaults := by
  refine fun i s => ⟨fun hpast => ?_, fun hcount hempty => ?_⟩
  · have hr := (registersValid_eq_false_iff _ _).mpr hpast
    exact ⟨_, exec_of_invalid i s _ (s.validate_of_registers_invalid _ hr), rfl, _, rfl, rfl⟩
  · obtain ⟨t, ht⟩ := exec_has_next i s
    refine ⟨t, ht, fun r hrec hkind => ?_⟩
    rcases exec_faults_because_or_keeps_record i s t ht with ⟨k, rfl, hk⟩ | hkeep
    · cases hrec
      obtain rfl : k = .invalidRegister := hkind
      exact absurd hk.regs_length_lt (by omega)
    · rw [hkeep, hempty] at hrec
      cases hrec

/-- Settles O9: the mode check is the second of every instruction. -/
theorem undefinedModeFaults : Obligations.UndefinedModeFaults := by
  intro i s hdest hsrc1 hsrc2 hmode
  have hr : i.fields.registersValid s.regs.length = true := by simp [Fields.registersValid, hdest, hsrc1, hsrc2]
  have hm : i.fields.modeValid = false := by simp [Fields.modeValid]; omega
  exact exec_of_invalid i s _ (s.validate_of_mode_invalid _ hr hm)

/-- Settles O10: such a word is rejected, and a cycle that fetches a rejected word takes the fault. -/
theorem unknownOpcodeFaults : Obligations.UnknownOpcodeFaults := by
  intro s hfetch hopcode
  exact step_of_decode_error s _ hfetch ((decode_eq_error_iff _ _).mpr ⟨hopcode, rfl⟩)

/-- Settles O51: by induction on the number of cells left, over the step of one zeroed cell. -/
theorem zeroedMemoryRunsToACleanEnd : Obligations.ZeroedMemoryRunsToACleanEnd := by
  intro s hlegal hrunning hpc hzero
  have hover : s.OverZeros := ⟨hlegal, hrunning, hpc, hzero⟩
  obtain ⟨t, ht, hend⟩ := hover.runFor (s.memWords - s.pc.toNat) (by omega)
  exact ⟨t, ht, hend.halted, hend.pc_eq, hend.faultRecord_eq, hend.mem_eq, fun hlt => hend.reg_zero (.inl hlt)⟩

end Sys2Proof.Machine
end

/-! # Proofs about the cycle and the operands (40_cycle_and_operands.md)

The resolver, the failed operand, how an instruction ends, what it keeps, and the invariant; then each obligation. -/

section
namespace Sys2Proof.Machine

open Sys2Proof

/-! ### The resolver (section 3) -/

/-- The immediate is zero-extended (decision D4). -/
@[simp] theorem zext32_toNat (imm : BitVec 11) : (zext32 imm).toNat = imm.toNat :=
  BitVec.toNat_setWidth_of_le (by decide)

/-- A register that is there makes the resolver the operand form of the mode. -/
theorem State.resolve_of_getElem? (s : State) (mode r : BitVec 4) (imm : BitVec 11) (m : Mode) (x : Word)
    (hx : s.regs[r.toNat]? = some x) (hm : Mode.ofBits mode = some m) :
    s.resolve mode r imm = s.operand m r imm := by
  obtain ⟨hr, -⟩ := List.getElem?_eq_some_iff.mp hx
  exact s.resolve_of_valid mode r imm m hr hm

/-! ### A failed operand -/

/-- An operand of a well-formed instruction fails only with OutOfBounds. -/
theorem State.operand_error_of_wellFormed (s : State) (f : Fields) (r : BitVec 4) (k : FaultKind)
    (hf : f.wellFormed s.regs.length = true) (hr : r = f.dest ∨ r = f.src1 ∨ r = f.src2)
    (h : s.resolve f.mode r f.imm = .error k) : k = .outOfBounds := by
  obtain ⟨hdest, hsrc1, hsrc2, -⟩ := (f.wellFormed_iff _).mp hf
  obtain ⟨-, hmode⟩ := f.wellFormed_parts _ hf
  have hlt : r.toNat < s.regs.length := by rcases hr with rfl | rfl | rfl <;> assumption
  exact s.resolve_error_cases f r k hlt hmode h

/-! ### How an instruction ends (rules R104 and R106) -/

/-- `u` is what an instruction that completes has made of `s` before the zero-register step: at most `x[dest]`
is written, and no fault is recorded. -/
structure CompletesAs (i : Instr) (s u : State) : Prop where
  runState_cases : u.runState = s.runState ∨ u.runState = .halted
  faultRecord_eq : u.faultRecord = s.faultRecord
  zeroReg_eq : u.zeroReg = s.zeroReg
  regs_cases : u.regs = s.regs ∨ ∃ r, u.regs = s.regs.set i.fields.dest.toNat r

/-- An instruction takes a fault, or it completes and ends with the zero-register step. -/
theorem exec_raises_or_completes (i : Instr) (s t : State) (h : exec i s = .next t) :
    (∃ k, t = s.raise k) ∨ ∃ u, t = u.forceZeroReg ∧ CompletesAs i s u := by
  rcases exec_cases i s t h with ⟨k, rfl, -⟩ | ⟨-, u, rfl, hu⟩
  · exact .inl ⟨k, rfl⟩
  refine .inr ⟨u, rfl, ?_⟩
  rcases hu with ⟨r, fl, rfl⟩ | ⟨f, addr, -, -, -, rfl⟩ | ⟨f, target, -, -, rfl⟩ | ⟨f, -, rfl⟩
  · exact ⟨.inl rfl, rfl, rfl, .inr ⟨r, rfl⟩⟩
  · exact ⟨.inl rfl, rfl, rfl, .inl rfl⟩
  · exact ⟨.inl rfl, rfl, rfl, .inl rfl⟩
  · exact ⟨.inr rfl, rfl, rfl, .inl rfl⟩

/-- No instruction that completes on a Running core leaves it Faulted. -/
theorem CompletesAs.runState_ne_faulted {i : Instr} {s u : State} (h : CompletesAs i s u)
    (hr : s.runState = .running) : u.runState ≠ .faulted := by
  rcases h.runState_cases with hu | hu <;> simp [hu, hr]

/-- A completing instruction neither adds nor removes a register. -/
theorem CompletesAs.regs_length {i : Instr} {s u : State} (h : CompletesAs i s u) :
    u.regs.length = s.regs.length := by
  rcases h.regs_cases with hu | ⟨r, hu⟩ <;> simp [hu]

/-- The registers after the zero-register step depend on the registers before it and on `ZERO_REG` alone. -/
theorem State.forceZeroReg_regs_congr (s u : State) (h : u.zeroReg = s.zeroReg) :
    u.forceZeroReg.regs = (State.forceZeroReg { s with regs := u.regs }).regs := by
  rw [State.forceZeroReg_regs, State.forceZeroReg_regs, h]

/-- A division by zero, once both operands are there, takes the fault DivisionByZero. -/
theorem exec_div_by_zero (f : Fields) (s : State) (a : Word) (h : s.twoOperands f a 0) :
    exec (.div f) s = .next (s.raise .divisionByZero) := by
  obtain ⟨hf, ha, hb⟩ := h
  have hop : aluDiv a 0 s.flags = .error .divisionByZero := if_pos rfl
  refine (execBinary_of_operands aluDiv f s a 0 hf ha hb).trans ?_
  rw [hop]
  rfl

/-- A LOAD whose operand resolves writes it back with its Z and S. -/
theorem exec_load_of_operand (f : Fields) (s : State) (v : Word) (h : s.oneOperand f v) :
    exec (.load f) s = .next (s.writeBack f.dest v (s.flags.setZS v)).forceZeroReg := by
  obtain ⟨hf, hv⟩ := h
  exact execUnary_of_operand AluResult.plain f s v hf hv

/-! ### What an instruction keeps -/

/-- Only a JUMP changes `pc`, and then it goes on without a fault. -/
theorem exec_keeps_pc_or_jumps (i : Instr) (s t : State) (h : exec i s = .next t) :
    t.pc = s.pc ∨ ((∃ f, i = .jump f) ∧ t.runState = s.runState) := by
  rcases exec_cases i s t h with ⟨k, rfl, -⟩ | ⟨-, u, rfl, hu⟩
  · exact .inl rfl
  rcases hu with ⟨r, fl, rfl⟩ | ⟨f, addr, -, -, -, rfl⟩ | ⟨f, target, hjump, -, rfl⟩ | ⟨f, -, rfl⟩
  · exact .inl (by simp)
  · exact .inl (by simp)
  · exact .inr ⟨⟨f, hjump⟩, by simp⟩
  · exact .inl (by simp)

/-- An instruction that is no STORE, JUMP or HALT takes a fault or writes a result back to `x[dest]`. -/
theorem exec_raises_or_writes_back (i : Instr) (s t : State) (hstore : ∀ f, i ≠ .store f)
    (hjump : ∀ f, i ≠ .jump f) (hhalt : ∀ f, i ≠ .halt f) (h : exec i s = .next t) :
    (∃ k, t = s.raise k) ∨ ∃ r fl, t = (s.writeBack i.fields.dest r fl).forceZeroReg := by
  rcases exec_cases i s t h with ⟨k, rfl, -⟩ | ⟨-, u, rfl, hu⟩
  · exact .inl ⟨k, rfl⟩
  rcases hu with ⟨r, fl, rfl⟩ | ⟨f, addr, hi, -⟩ | ⟨f, target, hi, -⟩ | ⟨f, hi, -⟩
  · exact .inr ⟨r, fl, rfl⟩
  · exact absurd hi (hstore f)
  · exact absurd hi (hjump f)
  · exact absurd hi (hhalt f)

/-- A write-back with its zero-register step leaves every register but `x[dest]` and the zero register. -/
theorem State.writeBack_forceZeroReg_getElem?_ne (s : State) (d : BitVec 4) (r : Word) (fl : Flags) (n : Nat)
    (hd : n ≠ d.toNat) (hz : s.zeroReg ≠ some n) :
    (s.writeBack d r fl).forceZeroReg.regs[n]? = s.regs[n]? :=
  calc (s.writeBack d r fl).forceZeroReg.regs[n]?
      = (s.writeBack d r fl).regs[n]? := State.forceZeroReg_getElem?_ne _ n hz
    _ = s.regs[n]? := List.getElem?_set_ne hd.symm

/-! ### The invariant

While no fault is taken the record is empty. An instruction may break the zero-register clause until its last
action restores it, so the other clauses are carried through its updates by themselves. -/

/-- The clauses of `State.Inv` but for the zero register, of a state in which no fault has been taken. -/
structure State.InvButZeroReg (s : State) : Prop where
  config_legal : s.config.legal
  mem_wf : s.mem.wf
  mem_bounded : ∀ c ∈ s.mem, c.1 < byteAddress s.memWords
  no_record : s.faultRecord = none
  not_faulted : s.runState ≠ .faulted

section Invariant

variable {s : State}

/-- The invariant gives the clauses for a state that has taken no fault. -/
theorem State.Inv.butZeroReg (h : s.Inv) (hr : s.runState ≠ .faulted) : s.InvButZeroReg where
  config_legal := h.config_legal
  mem_wf := h.mem_wf
  mem_bounded := h.mem_bounded
  no_record := Option.eq_none_iff_forall_ne_some.mpr fun r hrec => hr (h.record_agrees r hrec).1
  not_faulted := hr

/-- The clauses and a zero register that reads zero are the invariant. -/
theorem State.InvButZeroReg.inv (h : s.InvButZeroReg) (hz : ∀ z, s.zeroReg = some z → s.regs[z]? = some 0) :
    s.Inv where
  config_legal := h.config_legal
  mem_wf := h.mem_wf
  mem_bounded := h.mem_bounded
  record_agrees r hrec := by simp [h.no_record] at hrec
  faulted_recorded hr := absurd hr h.not_faulted
  zero_reg_reads_zero := hz

/-- The zero-register step completes the invariant: a legal zero register is one of the registers. -/
theorem State.InvButZeroReg.forceZeroReg_inv (h : s.InvButZeroReg) : s.forceZeroReg.Inv := by
  obtain ⟨-, -, -, hlegal⟩ := h.config_legal
  refine State.InvButZeroReg.inv ⟨?_, ?_, ?_, ?_, ?_⟩ fun z hz => ?_
  · simpa using h.config_legal
  · simpa using h.mem_wf
  · simpa using h.mem_bounded
  · simpa using h.no_record
  · simpa using h.not_faulted
  · have hz : s.zeroReg = some z := by simpa using hz
    exact s.forceZeroReg_getElem?_zero z hz (hlegal z hz)

theorem State.InvButZeroReg.writeBack (h : s.InvButZeroReg) (d : BitVec 4) (r : Word) (fl : Flags) :
    (s.writeBack d r fl).InvButZeroReg where
  config_legal := by simpa using h.config_legal
  mem_wf := h.mem_wf
  mem_bounded := h.mem_bounded
  no_record := h.no_record
  not_faulted := h.not_faulted

theorem State.InvButZeroReg.setCell (h : s.InvButZeroReg) (a : Nat) (v : Word) (ha : a < s.memWords) :
    State.InvButZeroReg { s with mem := s.mem.setCell a v } where
  config_legal := h.config_legal
  mem_wf := s.mem.setCell_wf a v h.mem_wf
  mem_bounded := s.mem.setCell_bounded a s.memWords v ha h.mem_bounded
  no_record := h.no_record
  not_faulted := h.not_faulted

theorem State.InvButZeroReg.setPc (h : s.InvButZeroReg) (v : Word) : (s.setPc v).InvButZeroReg :=
  ⟨h.config_legal, h.mem_wf, h.mem_bounded, h.no_record, h.not_faulted⟩

theorem State.InvButZeroReg.stop (h : s.InvButZeroReg) : s.stop.InvButZeroReg :=
  ⟨h.config_legal, h.mem_wf, h.mem_bounded, h.no_record, by simp⟩

theorem State.InvButZeroReg.fetch (h : s.InvButZeroReg) : s.fetch.InvButZeroReg :=
  ⟨h.config_legal, h.mem_wf, h.mem_bounded, h.no_record, h.not_faulted⟩

theorem State.InvButZeroReg.enterRunning (h : s.InvButZeroReg) : s.enterRunning.InvButZeroReg :=
  ⟨h.config_legal, h.mem_wf, h.mem_bounded, h.no_record, by simp⟩

/-- Taking a fault keeps the invariant: the record it makes is of the current `pc`. -/
theorem State.Inv.raise (h : s.Inv) (k : FaultKind) : (s.raise k).Inv where
  config_legal := h.config_legal
  mem_wf := h.mem_wf
  mem_bounded := h.mem_bounded
  record_agrees r hrec := by cases hrec; exact ⟨rfl, rfl⟩
  faulted_recorded _ := rfl
  zero_reg_reads_zero := h.zero_reg_reads_zero

/-- An instruction keeps the invariant of a state in which no fault has been taken. -/
theorem State.Inv.exec (h : s.Inv) (hr : s.runState ≠ .faulted) {i : Instr} {t : State}
    (ht : exec i s = .next t) : t.Inv := by
  have hbut := h.butZeroReg hr
  rcases exec_cases i s t ht with ⟨k, rfl, -⟩ | ⟨-, u, rfl, hu⟩
  · exact h.raise k
  refine State.InvButZeroReg.forceZeroReg_inv ?_
  rcases hu with ⟨r, fl, rfl⟩ | ⟨f, addr, -, -, hlt, rfl⟩ | ⟨f, target, -, -, rfl⟩ | ⟨f, -, rfl⟩
  · exact hbut.writeBack _ r fl
  · exact hbut.setCell _ _ hlt
  · exact hbut.setPc target
  · exact hbut.stop

/-- A step keeps the invariant; it starts in Ready or Running, where no fault has been taken. -/
theorem State.Inv.step (h : s.Inv) {t : State} (ht : step s = .next t) : t.Inv := by
  rcases step_cases s t ht with ⟨hr, rfl⟩ | ⟨hr, -, rfl⟩ | ⟨hr, -, hcycle⟩
  · exact (h.butZeroReg (by simp [hr])).enterRunning.inv h.zero_reg_reads_zero
  · exact (h.butZeroReg (by simp [hr])).stop.inv h.zero_reg_reads_zero
  have hfetch : s.fetch.Inv := (h.butZeroReg (by simp [hr])).fetch.inv h.zero_reg_reads_zero
  rcases hcycle with ⟨i, -, hi⟩ | ⟨o, -, rfl⟩
  · exact hfetch.exec (by simp [hr]) hi
  · exact hfetch.raise _

end Invariant

/-! ### The obligations -/

/-- Settles O45: a step enters the run, halts, takes a fault or completes an instruction, and each keeps it. -/
theorem everyStepKeepsInvariant : Obligations.EveryStepKeepsInvariant := fun _ _ h ht => h.step ht

/-- Settles O7: each mode number names its operand form. -/
theorem resolverGivesOperandOfEachMode : Obligations.ResolverGivesOperandOfEachMode := by
  intro s r imm x hx
  have hread := s.readReg_of_getElem? r x hx
  refine ⟨?_, ?_, ?_, ?_, ?_⟩
  · rw [s.resolve_of_getElem? _ r imm .immediate x hx rfl, BitVec.ofNat_toNat]
    rfl
  · rw [s.resolve_of_getElem? _ r imm .registerDirect x hx rfl]
    simp only [State.operand, hread]
  · rw [s.resolve_of_getElem? _ r imm .registerIndirect x hx rfl]
    simp only [State.operand, State.memRead, hread]
  · rw [s.resolve_of_getElem? _ r imm .memoryDirect x hx rfl]
    simp only [State.operand, State.memRead, zext32_toNat]
  · rw [s.resolve_of_getElem? _ r imm .memoryIndirect x hx rfl]
    simp only [State.operand, State.memRead, hread, zext32_toNat]

/-- Settles O11: an operand of a well-formed instruction fails only out of bounds, and the fault is then taken. -/
theorem failedOperandReadFaults : Obligations.FailedOperandReadFaults := by
  refine fun f s k hf => ⟨fun i hi h => ?_, fun i hi h => ?_, fun h => ?_⟩
  · obtain rfl : k = .outOfBounds := by
      rcases h with h1 | ⟨-, h2⟩
      · exact s.operand_error_of_wellFormed f _ k hf (.inr (.inl rfl)) h1
      · exact s.operand_error_of_wellFormed f _ k hf (.inr (.inr rfl)) h2
    exact ⟨rfl, exec_of_failed_operand_of_two hf hi (h.imp_right And.right)⟩
  · obtain rfl := s.operand_error_of_wellFormed f _ k hf (.inr (.inl rfl)) h
    exact ⟨rfl, exec_of_failed_operand hf hi h⟩
  · obtain rfl := s.operand_error_of_wellFormed f _ k hf (.inl rfl) h
    exact ⟨rfl, exec_store_of_failed_access hf (.inl h)⟩

/-- Settles O12: an instruction takes a fault or completes, and a zero divisor makes DIV take its fault. -/
theorem abortedInstructionWritesNothing : Obligations.AbortedInstructionWritesNothing := by
  intro i s t hr h
  refine ⟨fun hfaulted => ?_, fun hnot => ?_, ?_⟩
  · rcases exec_raises_or_completes i s t h with ⟨k, rfl⟩ | ⟨u, rfl, hu⟩
    · rfl
    · exact absurd (by simpa using hfaulted) (hu.runState_ne_faulted hr)
  · rcases exec_raises_or_completes i s t h with ⟨k, rfl⟩ | ⟨u, rfl, hu⟩
    · exact absurd rfl hnot
    · exact ⟨by simpa using hu.faultRecord_eq, u.regs, hu.regs_cases,
        s.forceZeroReg_regs_congr u hu.zeroReg_eq⟩
  · rintro f a rfl hops
    rw [exec_div_by_zero f s a hops] at h
    cases h
    exact ⟨rfl, rfl, rfl⟩

/-- Settles O14: the fetch writes `ir` and `pc`; no instruction writes `ir`, and only a completing JUMP `pc`. -/
theorem fetchLoadsIrAndAdvancesPc : Obligations.FetchLoadsIrAndAdvancesPc := by
  intro s hfetch hcap
  obtain ⟨t, ht, hir⟩ := step_ir_of_fetches s hfetch
  refine ⟨t, ht, hir, fun hstays => ?_⟩
  obtain ⟨hr, hlt⟩ := hfetch
  have hnext : (s.pc + 1).toNat = s.pc.toNat + 1 := by bv_omega
  suffices hpc : t.pc = s.fetch.pc by rw [hpc, State.fetch_pc, hnext]
  cases hdec : decode (s.mem.getCell s.pc.toNat) with
  | error e =>
    rw [step_of_decode_error s e ⟨hr, hlt⟩ hdec] at ht
    cases ht
    rfl
  | ok i =>
    rw [step_of_decode_ok s i ⟨hr, hlt⟩ hdec] at ht
    rcases exec_keeps_pc_or_jumps i s.fetch t ht with hkeep | ⟨⟨f, rfl⟩, hrun⟩
    · exact hkeep
    · rcases hstays with hfaulted | hno
      · simp [hrun, hr] at hfaulted
      · exact absurd hdec (hno f)

/-- Settles O36: each of the fifteen takes a fault or writes a result back. -/
theorem registerWritersFrame : Obligations.RegisterWritersFrame := by
  intro f s t i hi h
  obtain ⟨hfields, hstore, hjump, hhalt⟩ :
      i.fields = f ∧ (∀ g, i ≠ .store g) ∧ (∀ g, i ≠ .jump g) ∧ ∀ g, i ≠ .halt g := by
    revert i
    simp [Instr.fields]
  have hcases := exec_raises_or_writes_back i s t hstore hjump hhalt h
  rw [hfields] at hcases
  rcases hcases with ⟨k, rfl⟩ | ⟨r, fl, rfl⟩
  · simp
  · exact ⟨fun n hd hz => s.writeBack_forceZeroReg_getElem?_ne f.dest r fl n hd hz, by simp⟩

/-- Settles O39: the zero-register step is the last action of every instruction that completes. -/
theorem zeroRegisterIsForced : Obligations.ZeroRegisterIsForced := by
  refine fun s z hz hlt hr => ⟨fun i t h hnot => ?_, fun f v hv _ => ?_⟩
  · rcases exec_raises_or_completes i s t h with ⟨k, rfl⟩ | ⟨u, rfl, hu⟩
    · exact absurd rfl hnot
    · exact u.forceZeroReg_getElem?_zero z (hu.zeroReg_eq.trans hz) (hu.regs_length.symm ▸ hlt)
  · refine ⟨_, exec_load_of_operand f s v hv, ?_, ?_, ?_⟩
    · exact State.forceZeroReg_getElem?_zero _ z hz (by simpa using hlt)
    · simp [Flags.setZS]
    · simp [Flags.setZS, BitVec.msb_eq_getLsbD_last]

/-- Settles O13: the state the fetch leaves is the model's own. -/
theorem stepRunsDecodedInstruction : Obligations.StepRunsDecodedInstruction := step_of_decode_ok

/-- Settles O15: the end-of-memory test comes first in a cycle, and stopping changes the run state alone. -/
theorem endOfMemoryHaltsCleanly : Obligations.EndOfMemoryHaltsCleanly := step_of_end_of_memory

end Sys2Proof.Machine
end

/-! # Proofs about the arithmetic (41_arithmetic.md)

The results and the flags of the operations, then an instruction whose operands resolve; then each obligation. -/

section
namespace Sys2Proof.Machine

open Sys2Proof

/-! ### The exact results, truncated

The model computes in the numbers and truncates once (rule R9); on words that is the word operation. -/

theorem trunc32_add (a b : Word) : trunc32 (a.toNat + b.toNat) = a + b :=
  BitVec.eq_of_toNat_eq (by simp [trunc32])

theorem trunc32_mul (a b : Word) : trunc32 (a.toNat * b.toNat) = a * b :=
  BitVec.eq_of_toNat_eq (by simp [trunc32])

theorem trunc32Int_sub (a b : Word) : trunc32Int ((a.toNat : Int) - (b.toNat : Int)) = a - b := by
  apply BitVec.eq_of_toNat_eq
  rw [trunc32Int, BitVec.toNat_ofInt, BitVec.toNat_sub]
  omega

/-- A quotient is no larger than its dividend, so the truncation loses nothing. -/
theorem trunc32_div_toNat (a b : Word) : (trunc32 (a.toNat / b.toNat)).toNat = a.toNat / b.toNat := by
  have hlt : a.toNat / b.toNat < 2 ^ 32 := (Nat.div_le_self _ _).trans_lt a.isLt
  exact (BitVec.toNat_ofNat _ _).trans (Nat.mod_eq_of_lt hlt)

/-! ### C and V as ranges

The model tests V on the three sign bits; the exact signed result is then out of range. -/

theorem carryOut_eq (a b : Word) : carryOut a b = decide (2 ^ 32 ≤ a.toNat + b.toNat) :=
  decide_eq_decide.mpr (by omega)

theorem mulOverflow_eq (a b : Word) : mulOverflow a b = decide (2 ^ 32 ≤ a.toNat * b.toNat) :=
  decide_eq_decide.mpr (by omega)

theorem addOverflow_eq (a b : Word) :
    addOverflow a b (a + b) = decide (a.toInt + b.toInt < -2 ^ 31 ∨ 2 ^ 31 ≤ a.toInt + b.toInt) :=
  calc addOverflow a b (a + b)
      = BitVec.saddOverflow a b := (BitVec.saddOverflow_eq a b).symm
    _ = decide (a.toInt + b.toInt < -2 ^ 31 ∨ 2 ^ 31 ≤ a.toInt + b.toInt) := by
      simp [BitVec.saddOverflow, Bool.or_comm]

/-- The core library tests the signs of a difference case by case. -/
theorem subOverflow_eq_ssubOverflow (a b : Word) : subOverflow a b (a - b) = BitVec.ssubOverflow a b := by
  rw [BitVec.ssubOverflow_eq, subOverflow]
  cases a.msb <;> cases b.msb <;> simp

theorem subOverflow_eq (a b : Word) :
    subOverflow a b (a - b) = decide (a.toInt - b.toInt < -2 ^ 31 ∨ 2 ^ 31 ≤ a.toInt - b.toInt) :=
  calc subOverflow a b (a - b)
      = BitVec.ssubOverflow a b := subOverflow_eq_ssubOverflow a b
    _ = decide (a.toInt - b.toInt < -2 ^ 31 ∨ 2 ^ 31 ≤ a.toInt - b.toInt) := by
      simp [BitVec.ssubOverflow, Bool.or_comm]

/-! ### What the operations answer -/

/-- The answer `r` with the given C and V, and with the Z and S of `r` (decision D21). -/
def AluResult.ofCV (r : Word) (carry overflow : Bool) : AluResult :=
  { r := r, flags := { zero := decide (r = 0), sign := r.getLsbD 31, carry := carry, overflow := overflow } }

/-- `setZS` reads the sign in bit 31. -/
theorem Flags.setZS_eq (fl : Flags) (r : Word) :
    fl.setZS r = { fl with zero := decide (r = 0), sign := r.getLsbD 31 } := by
  rw [Flags.setZS, BitVec.msb_eq_getLsbD_last]

theorem AluResult.plain_eq (r : Word) (fl : Flags) : AluResult.plain r fl = .ofCV r fl.carry fl.overflow := by
  rw [AluResult.plain, Flags.setZS_eq]
  rfl

theorem aluAdd_eq (a b : Word) (fl : Flags) :
    aluAdd a b fl = .ofCV (a + b) (decide (2 ^ 32 ≤ a.toNat + b.toNat))
      (decide (a.toInt + b.toInt < -2 ^ 31 ∨ 2 ^ 31 ≤ a.toInt + b.toInt)) := by
  simp only [aluAdd, trunc32_add, Flags.setZS_eq, carryOut_eq, addOverflow_eq, AluResult.ofCV]

theorem aluSub_eq (a b : Word) (fl : Flags) :
    aluSub a b fl = .ofCV (a - b) (decide (a.toNat < b.toNat))
      (decide (a.toInt - b.toInt < -2 ^ 31 ∨ 2 ^ 31 ≤ a.toInt - b.toInt)) := by
  simp only [aluSub, trunc32Int_sub, Flags.setZS_eq, borrow, subOverflow_eq, AluResult.ofCV]

theorem aluMul_eq (a b : Word) (fl : Flags) :
    aluMul a b fl = .ofCV (a * b) fl.carry (decide (2 ^ 32 ≤ a.toNat * b.toNat)) := by
  simp only [aluMul, trunc32_mul, Flags.setZS_eq, mulOverflow_eq, AluResult.ofCV]

theorem aluDiv_of_ne_zero (a b : Word) (fl : Flags) (hb : b ≠ 0) :
    aluDiv a b fl = .ok (.ofCV (trunc32 (a.toNat / b.toNat)) fl.carry fl.overflow) := by
  rw [aluDiv, if_neg hb, AluResult.plain_eq]

/-- Adding 1 carries out of the largest word only, and overflows from the largest signed word only. -/
theorem aluAdd_one (a : Word) (fl : Flags) :
    aluAdd a 1 fl = .ofCV (a + 1) (decide (a = 0xFFFFFFFF)) (decide (a = 0x7FFFFFFF)) := by
  have hcarry : 2 ^ 32 ≤ a.toNat + (1 : Word).toNat ↔ a = 0xFFFFFFFF := by bv_omega
  have hoverflow : (a.toInt + (1 : Word).toInt < -2 ^ 31 ∨ 2 ^ 31 ≤ a.toInt + (1 : Word).toInt) ↔
      a = 0x7FFFFFFF := by
    have hlow := BitVec.le_toInt a
    have hhigh := BitVec.toInt_lt (x := a)
    have hone : (1 : Word).toInt = 1 := by decide
    have hmax : (0x7FFFFFFF : Word).toInt = 2 ^ 31 - 1 := by decide
    rw [← BitVec.toInt_inj, hone, hmax]
    omega
  simp only [aluAdd_eq, hcarry, hoverflow]

/-- Subtracting 1 borrows at 0 only, and overflows from the smallest signed word only. -/
theorem aluSub_one (a : Word) (fl : Flags) :
    aluSub a 1 fl = .ofCV (a - 1) (decide (a = 0)) (decide (a = 0x80000000)) := by
  have hborrow : a.toNat < (1 : Word).toNat ↔ a = 0 := by bv_omega
  have hoverflow : (a.toInt - (1 : Word).toInt < -2 ^ 31 ∨ 2 ^ 31 ≤ a.toInt - (1 : Word).toInt) ↔
      a = 0x80000000 := by
    have hlow := BitVec.le_toInt a
    have hhigh := BitVec.toInt_lt (x := a)
    have hone : (1 : Word).toInt = 1 := by decide
    have hmin : (0x80000000 : Word).toInt = -2 ^ 31 := by decide
    rw [← BitVec.toInt_inj, hone, hmin]
    omega
  simp only [aluSub_eq, hborrow, hoverflow]

/-! ### An instruction whose operands resolve -/

section Completed

variable {f : Fields} {s : State} {a b r : Word} {carry overflow : Bool}

/-- A two-operand instruction completes with what its operation answers. -/
theorem execBinary_of_ofCV {op : Word → Word → Flags → Except FaultKind AluResult} (h : s.twoOperands f a b)
    (hop : op a b s.flags = .ok (.ofCV r carry overflow)) :
    execBinary op f s = .next (s.afterResult f r carry overflow) := by
  obtain ⟨hf, ha, hb⟩ := h
  rw [execBinary_of_operands op f s a b hf ha hb, hop]
  rfl

/-- The same for an operation that cannot fail. -/
theorem execBinary_ok_of_ofCV {op : Word → Word → Flags → AluResult} (h : s.twoOperands f a b)
    (hop : op a b s.flags = .ofCV r carry overflow) :
    execBinary (fun a b fl => .ok (op a b fl)) f s = .next (s.afterResult f r carry overflow) :=
  execBinary_of_ofCV h (congrArg Except.ok hop)

/-- A one-operand instruction completes with what its operation answers. -/
theorem execUnary_of_ofCV {op : Word → Flags → AluResult} (h : s.oneOperand f a)
    (hop : op a s.flags = .ofCV r carry overflow) :
    execUnary op f s = .next (s.afterResult f r carry overflow) := by
  obtain ⟨hf, ha⟩ := h
  rw [execUnary_of_operand op f s a hf ha, hop]
  rfl

end Completed

/-! ### The obligations -/

/-- Settles O21: C and V are those of the exact sum. -/
theorem addResult : Obligations.AddResult := fun _ s a b h =>
  execBinary_ok_of_ofCV h (aluAdd_eq a b s.flags)

/-- Settles O22: C is the borrow and V that of the exact difference. -/
theorem subResult : Obligations.SubResult := fun _ s a b h =>
  execBinary_ok_of_ofCV h (aluSub_eq a b s.flags)

/-- Settles O23: V is that of the exact unsigned product, and C is kept. -/
theorem mulResult : Obligations.MulResult := fun _ s a b h =>
  execBinary_ok_of_ofCV h (aluMul_eq a b s.flags)

/-- Settles O24: the quotient needs no truncation. -/
theorem divResult : Obligations.DivResult := fun _ s a b h hb =>
  ⟨_, trunc32_div_toNat a b, execBinary_of_ofCV h (aluDiv_of_ne_zero a b s.flags hb)⟩

/-- Settles O25: the operation fails after both reads, and nothing it computed is written. -/
theorem divByZeroFaults : Obligations.DivByZeroFaults := exec_div_by_zero

/-- Settles O26: INC is the addition of 1. -/
theorem incResult : Obligations.IncResult := fun _ s a h => execUnary_of_ofCV h (aluAdd_one a s.flags)

/-- Settles O27: DEC is the subtraction of 1. -/
theorem decResult : Obligations.DecResult := fun _ s a h => execUnary_of_ofCV h (aluSub_one a s.flags)

end Sys2Proof.Machine
end

/-! # Proofs about the logic (42_logic.md)

AND, OR, XOR and NOT answer a word with its Z and S and keep C and V; then the obligation. -/

section
namespace Sys2Proof.Machine

open Sys2Proof

/-! ### What the operations answer -/

theorem aluAnd_eq (a b : Word) (fl : Flags) : aluAnd a b fl = .ofCV (a &&& b) fl.carry fl.overflow :=
  AluResult.plain_eq (a &&& b) fl

theorem aluOr_eq (a b : Word) (fl : Flags) : aluOr a b fl = .ofCV (a ||| b) fl.carry fl.overflow :=
  AluResult.plain_eq (a ||| b) fl

theorem aluXor_eq (a b : Word) (fl : Flags) : aluXor a b fl = .ofCV (a ^^^ b) fl.carry fl.overflow :=
  AluResult.plain_eq (a ^^^ b) fl

theorem aluNot_eq (a : Word) (fl : Flags) : aluNot a fl = .ofCV (~~~a) fl.carry fl.overflow :=
  AluResult.plain_eq (~~~a) fl

/-! ### The obligation -/

/-- Settles O28: each completes with the word operation's answer, and the bits are the library's; every bit of
NOT flipped is the distance from the largest word. -/
theorem logicalResults : Obligations.LogicalResults := by
  refine ⟨fun f s a b h => ⟨?and, ?or, ?xor⟩, fun f s a h => ?not⟩
  case and => exact ⟨a &&& b, fun _ => BitVec.getLsbD_and, execBinary_ok_of_ofCV h (aluAnd_eq a b s.flags)⟩
  case or => exact ⟨a ||| b, fun _ => BitVec.getLsbD_or, execBinary_ok_of_ofCV h (aluOr_eq a b s.flags)⟩
  case xor => exact ⟨a ^^^ b, fun _ => BitVec.getLsbD_xor, execBinary_ok_of_ofCV h (aluXor_eq a b s.flags)⟩
  case not => exact ⟨~~~a, BitVec.toNat_not, execUnary_of_ofCV h (aluNot_eq a s.flags)⟩

end Sys2Proof.Machine
end

/-! # Proofs about the shifts and rotates (43_shift_rotate.md)

The model shifts in the numbers; on words that is the library's shift or rotate by the amount modulo 32, whose bits
are known. Then what a completed instruction leaves in `x[dest]` and the flags; then each obligation. -/

section
namespace Sys2Proof.Machine

open Sys2Proof

/-! ### The exact results, truncated -/

theorem shiftLeft_eq (a : Word) (k : Nat) : shiftLeft a k = a <<< k := by
  apply BitVec.eq_of_toNat_eq
  rw [shiftLeft, trunc32, BitVec.toNat_ofNat, BitVec.toNat_shiftLeft, Nat.shiftLeft_eq]

/-- A quotient is no larger than its dividend, so the truncation loses nothing. -/
theorem shiftRight_eq (a : Word) (k : Nat) : shiftRight a k = a >>> k := by
  have hlt : a.toNat / 2 ^ k < 2 ^ 32 := (Nat.div_le_self _ _).trans_lt a.isLt
  apply BitVec.eq_of_toNat_eq
  rw [shiftRight, trunc32, BitVec.toNat_ofNat, BitVec.toNat_ushiftRight, Nat.shiftRight_eq_div_pow,
    Nat.mod_eq_of_lt hlt]

/-- The model's case `k = 0` agrees with the other: a shift by the whole width adds no bit. -/
theorem rotateLeft_eq (a : Word) (k : Nat) (hk : k < 32) : rotateLeft a k = a.rotateLeft k := by
  rw [BitVec.rotateLeft_def, Nat.mod_eq_of_lt hk, rotateLeft]
  split
  · next hzero => simp [hzero, BitVec.ushiftRight_eq_zero]
  · rw [shiftLeft_eq, shiftRight_eq]

/-- The same to the right. -/
theorem rotateRight_eq (a : Word) (k : Nat) (hk : k < 32) : rotateRight a k = a.rotateRight k := by
  rw [BitVec.rotateRight_def, Nat.mod_eq_of_lt hk, rotateRight]
  split
  · next hzero => simp [hzero]
  · rw [shiftLeft_eq, shiftRight_eq]

/-! ### Where a bit goes -/

theorem getLsbD_shiftLeft_of_lt (a : Word) (k i : Nat) (hi : i < 32) :
    (a <<< k).getLsbD i = (decide (k ≤ i) && a.getLsbD (i - k)) := by
  simp only [BitVec.getLsbD_shiftLeft, hi, decide_true, Bool.true_and, ← decide_not, Nat.not_lt]

/-- A bit either stays below 32 on its way up or wraps round to the low end. -/
theorem getLsbD_rotateLeft_add_mod (a : Word) (k i : Nat) (hk : k < 32) (hi : i < 32) :
    (a.rotateLeft k).getLsbD ((i + k) % 32) = a.getLsbD i := by
  rw [BitVec.getLsbD_rotateLeft, Nat.mod_eq_of_lt hk]
  by_cases hwrap : i + k < 32
  · have hpos : (i + k) % 32 = i + k := Nat.mod_eq_of_lt hwrap
    simp [hpos, hwrap]
  · have hpos : (i + k) % 32 = i + k - 32 := by omega
    have hlow : i + k - 32 < k := by omega
    have hsrc : 32 - k + (i + k - 32) = i := by omega
    simp [hpos, hlow, hsrc]

/-- A bit either stays above 0 on its way down or wraps round to the high end. -/
theorem getLsbD_rotateRight_sub_mod (a : Word) (k i : Nat) (hk : k < 32) (hi : i < 32) :
    (a.rotateRight k).getLsbD ((i + (32 - k)) % 32) = a.getLsbD i := by
  rw [BitVec.getLsbD_rotateRight, Nat.mod_eq_of_lt hk]
  by_cases hwrap : i < k
  · have hpos : (i + (32 - k)) % 32 = i + (32 - k) := by omega
    have hhigh : i + (32 - k) < 32 := by omega
    simp [hpos, hhigh]
  · have hpos : (i + (32 - k)) % 32 = i - k := by omega
    have hlow : i - k < 32 - k := by omega
    have hsrc : k + (i - k) = i := by omega
    simp [hpos, hlow, hsrc]

/-! ### What the operations answer -/

theorem shiftAmount_lt (b : Word) : shiftAmount b < 32 := Nat.mod_lt _ (by decide)

/-- 32 divides 2^32, so this holds when the sum wraps too. -/
theorem shiftAmount_add_32 (b : Word) : shiftAmount (b + 32) = shiftAmount b := by
  unfold shiftAmount
  bv_omega

theorem aluShl_eq (a b : Word) (fl : Flags) :
    aluShl a b fl = .ofCV (a <<< shiftAmount b) fl.carry fl.overflow := by
  rw [aluShl, shiftLeft_eq, AluResult.plain_eq]

theorem aluShr_eq (a b : Word) (fl : Flags) :
    aluShr a b fl = .ofCV (a >>> shiftAmount b) fl.carry fl.overflow := by
  rw [aluShr, shiftRight_eq, AluResult.plain_eq]

theorem aluRol_eq (a b : Word) (fl : Flags) :
    aluRol a b fl = .ofCV (a.rotateLeft (shiftAmount b)) fl.carry fl.overflow := by
  rw [aluRol, rotateLeft_eq a _ (shiftAmount_lt b), AluResult.plain_eq]

theorem aluRor_eq (a b : Word) (fl : Flags) :
    aluRor a b fl = .ofCV (a.rotateRight (shiftAmount b)) fl.carry fl.overflow := by
  rw [aluRor, rotateRight_eq a _ (shiftAmount_lt b), AluResult.plain_eq]

/-- Each of the four writes back one function of the value and of the amount modulo 32, whatever the mode, and
keeps C and V (rule R154). -/
theorem exec_shift_of_operands (op : Fields → Instr) (hop : op ∈ [Instr.shl, .shr, .rol, .ror]) :
    ∃ g : Word → Nat → Word, ∀ (f : Fields) (s : State) (a b : Word), s.twoOperands f a b →
      exec (op f) s = .next (s.afterResult f (g a (shiftAmount b)) s.flags.carry s.flags.overflow) := by
  simp only [List.mem_cons, List.not_mem_nil, or_false] at hop
  rcases hop with rfl | rfl | rfl | rfl
  · exact ⟨fun a k => a <<< k, fun f s a b h => execBinary_ok_of_ofCV h (aluShl_eq a b s.flags)⟩
  · exact ⟨fun a k => a >>> k, fun f s a b h => execBinary_ok_of_ofCV h (aluShr_eq a b s.flags)⟩
  · exact ⟨BitVec.rotateLeft, fun f s a b h => execBinary_ok_of_ofCV h (aluRol_eq a b s.flags)⟩
  · exact ⟨BitVec.rotateRight, fun f s a b h => execBinary_ok_of_ofCV h (aluRor_eq a b s.flags)⟩

/-! ### The state after a completed instruction -/

@[simp] theorem State.afterResult_flags (s : State) (f : Fields) (r : Word) (carry overflow : Bool) :
    (s.afterResult f r carry overflow).flags =
      { zero := decide (r = 0), sign := r.getLsbD 31, carry := carry, overflow := overflow } :=
  State.forceZeroReg_flags _

/-- After a write-back with its zero-register step `x[d]` holds the result, unless it is the zero register. -/
theorem State.writeBack_forceZeroReg_getElem?_same (s : State) (d : BitVec 4) (r : Word) (fl : Flags)
    (hd : d.toNat < s.regs.length) :
    (s.writeBack d r fl).forceZeroReg.regs[d.toNat]? = some (if s.zeroReg = some d.toNat then 0 else r) := by
  split
  · next hz => exact State.forceZeroReg_getElem?_zero _ _ (by simpa using hz) (by simpa using hd)
  · next hz =>
    rw [State.forceZeroReg_getElem?_ne _ _ (by simpa using hz), State.writeBack_regs]
    exact List.getElem?_set_self hd

/-- A completed instruction writes back, so the same holds of its `x[dest]`. -/
theorem State.afterResult_getElem?_dest (s : State) (f : Fields) (r : Word) (carry overflow : Bool)
    (hd : f.dest.toNat < s.regs.length) :
    (s.afterResult f r carry overflow).regs[f.dest.toNat]? =
      some (if s.zeroReg = some f.dest.toNat then 0 else r) :=
  s.writeBack_forceZeroReg_getElem?_same f.dest r _ hd

/-- What a completed instruction leaves in `x[dest]` depends on `dest`, the result and `ZERO_REG` alone. -/
theorem State.afterResult_getElem?_dest_congr {s s' : State} {f f' : Fields} {r : Word}
    {carry overflow carry' overflow' : Bool} (hf : f.wellFormed s.regs.length = true)
    (hf' : f'.wellFormed s'.regs.length = true) (hdest : f'.dest = f.dest) (hzero : s'.zeroReg = s.zeroReg) :
    (s'.afterResult f' r carry' overflow').regs[f.dest.toNat]? =
      (s.afterResult f r carry overflow).regs[f.dest.toNat]? := by
  obtain ⟨hd, -⟩ := (Fields.wellFormed_iff _ _).mp hf
  obtain ⟨hd', -⟩ := (Fields.wellFormed_iff _ _).mp hf'
  rw [← hdest, s'.afterResult_getElem?_dest f' r _ _ hd', hdest, s.afterResult_getElem?_dest f r _ _ hd, hzero]

/-! ### The obligations -/

/-- Settles O29: the two are the library's logical shifts by the amount modulo 32. -/
theorem shiftResults : Obligations.ShiftResults := fun _ s a b h =>
  ⟨⟨a <<< shiftAmount b, fun i hi => getLsbD_shiftLeft_of_lt a _ i hi,
      execBinary_ok_of_ofCV h (aluShl_eq a b s.flags)⟩,
    ⟨a >>> shiftAmount b, fun _ _ => (BitVec.getLsbD_ushiftRight ..).trans (congrArg a.getLsbD (Nat.add_comm ..)),
      execBinary_ok_of_ofCV h (aluShr_eq a b s.flags)⟩⟩

/-- Settles O30: the two are the library's rotates by the amount modulo 32. -/
theorem rotateResults : Obligations.RotateResults := fun _ s a b h =>
  ⟨⟨a.rotateLeft (shiftAmount b), fun i hi => getLsbD_rotateLeft_add_mod a _ i (shiftAmount_lt b) hi,
      execBinary_ok_of_ofCV h (aluRol_eq a b s.flags)⟩,
    ⟨a.rotateRight (shiftAmount b), fun i hi => getLsbD_rotateRight_sub_mod a _ i (shiftAmount_lt b) hi,
      execBinary_ok_of_ofCV h (aluRor_eq a b s.flags)⟩⟩

/-- Settles O31: the two executions write back the same result, as the amounts are equal modulo 32. -/
theorem shiftAmountIsModulo32 : Obligations.ShiftAmountIsModulo32 := by
  intro f f' s s' a b h h' hdest hflags hzero op hop
  obtain ⟨g, hg⟩ := exec_shift_of_operands op hop
  refine ⟨_, _, hg f s a b h, hg f' s' a (b + 32) h', ?flags, ?dest⟩
  case flags => rw [State.afterResult_flags, State.afterResult_flags, shiftAmount_add_32, hflags]
  case dest =>
    obtain ⟨hf, -⟩ := h
    obtain ⟨hf', -⟩ := h'
    rw [shiftAmount_add_32]
    exact State.afterResult_getElem?_dest_congr hf hf' hdest hzero

end Sys2Proof.Machine
end

/-! # Proofs about the data transfer (44_data_transfer.md)

What STORE, JUMP and HALT do to the registers, and STORE to memory; then each obligation. -/

section
namespace Sys2Proof.Machine

open Sys2Proof

/-! ### The registers after STORE, JUMP and HALT -/

/-- STORE, JUMP and HALT write no register: a fault keeps them all, and completing adds the zero-register step. -/
theorem exec_keeps_regs_or_forces_zeroReg (f : Fields) (s t : State) (i : Instr)
    (hi : i ∈ [Instr.store f, .jump f, .halt f]) (h : exec i s = .next t) :
    t.regs = s.regs ∨ t.regs = s.forceZeroReg.regs := by
  simp only [List.mem_cons, List.not_mem_nil, or_false] at hi
  rcases hi with rfl | rfl | rfl
  · rcases execStore_cases f s t h with ⟨k, rfl, -⟩ | ⟨addr, -, -, -, rfl⟩
    · exact .inl rfl
    · exact .inr (s.forceZeroReg_regs_congr _ rfl)
  · rcases execJump_cases f s t h with ⟨k, rfl, -⟩ | ⟨target, -, -, rfl⟩
    · exact .inl rfl
    · exact .inr (s.forceZeroReg_regs_congr _ rfl)
  · rcases execHalt_cases f s t h with ⟨k, rfl, -⟩ | ⟨-, rfl⟩
    · exact .inl rfl
    · exact .inr (s.forceZeroReg_regs_congr _ rfl)

/-- STORE, JUMP and HALT leave every register but the zero register. -/
theorem exec_getElem?_ne_zeroReg (f : Fields) (s t : State) (i : Instr)
    (hi : i ∈ [Instr.store f, .jump f, .halt f]) (h : exec i s = .next t) (n : Nat) (hn : s.zeroReg ≠ some n) :
    t.regs[n]? = s.regs[n]? := by
  rcases exec_keeps_regs_or_forces_zeroReg f s t i hi h with hregs | hregs
  · rw [hregs]
  · rw [hregs, s.forceZeroReg_getElem?_ne n hn]

/-! ### The memory after a STORE -/

/-- A STORE keeps memory, or its resolver gives an address and it writes `x[src1]` to that cell. -/
theorem exec_store_mem_cases (f : Fields) (s t : State) (h : exec (.store f) s = .next t) :
    t.mem = s.mem ∨ ∃ addr, s.resolve f.mode f.dest f.imm = .ok addr ∧
      t.mem = s.mem.setCell addr.toNat (s.readReg f.src1) := by
  rcases execStore_cases f s t h with ⟨k, rfl, -⟩ | ⟨addr, -, ha, -, rfl⟩
  · exact .inl rfl
  · exact .inr ⟨addr, ha, State.forceZeroReg_mem _⟩

/-- A STORE leaves every byte outside the cell at its address. -/
theorem exec_store_getByte_outside (f : Fields) (s t : State) (addr : Word) (h : exec (.store f) s = .next t)
    (ha : s.resolve f.mode f.dest f.imm = .ok addr) (b : Nat)
    (hb : b < byteAddress addr.toNat ∨ byteAddress addr.toNat + 4 ≤ b) :
    t.mem.getByte b = s.mem.getByte b := by
  rcases exec_store_mem_cases f s t h with hmem | ⟨addr', ha', hmem⟩
  · rw [hmem]
  · obtain rfl : addr' = addr := Except.ok.inj (ha'.symm.trans ha)
    rw [hmem, Memory.getByte_setCell_outside _ _ b _ hb]

/-- A STORE whose resolver gives no address keeps memory. -/
theorem exec_store_keeps_mem_of_error (f : Fields) (s t : State) (k : FaultKind)
    (h : exec (.store f) s = .next t) (hk : s.resolve f.mode f.dest f.imm = .error k) : t.mem = s.mem := by
  rcases exec_store_mem_cases f s t h with hmem | ⟨addr, ha, -⟩
  · exact hmem
  · rw [hk] at ha
    cases ha

/-! ### The obligations -/

/-- Settles O32: LOAD is the one-operand instruction whose operation answers its operand. -/
theorem loadResult : Obligations.LoadResult := fun _ s v h =>
  execUnary_of_ofCV h (AluResult.plain_eq v s.flags)

/-- Settles O33: the write below the capacity and its frame; past the capacity the write fails. -/
theorem storeResult : Obligations.StoreResult := by
  refine fun f s addr d hf ha hd => ⟨fun hlt => ?completes, fun hle => ?faults⟩
  case completes =>
    have hnext := exec_store_of_address f s addr d hf ha hd hlt
    refine ⟨_, hnext, ?state, ?cell, exec_store_getByte_outside f s _ addr hnext ha⟩
    case state => rw [State.forceZeroReg_mem]
    case cell => rw [State.forceZeroReg_mem, Memory.getCell_setCell_same]
  case faults => exact exec_store_of_failed_access hf (.inr ⟨addr, ha, hle⟩)

/-- Settles O38: what every instruction keeps, what every one but JUMP or STORE keeps, and STORE's own frame. -/
theorem storeJumpHaltFrame : Obligations.StoreJumpHaltFrame := by
  refine fun f s t => ⟨fun i hi h => ?state, fun i hi h => ?pc, fun i hi h b => ?mem, fun h => ⟨?cell, ?noAddress⟩⟩
  case state =>
    obtain ⟨-, -, hflags⟩ := flagsFrame f s t
    obtain ⟨hsp, hconfig⟩ := exec_keeps_sp_config i s t h
    exact ⟨exec_getElem?_ne_zeroReg f s t i hi h, congrArg Config.regCount hconfig, hflags i hi h, hsp,
      exec_keeps_ir i s t h, congrArg Config.memWords hconfig, congrArg Config.zeroReg hconfig⟩
  case pc =>
    rcases exec_keeps_pc_or_jumps i s t h with hpc | ⟨⟨g, rfl⟩, -⟩
    · exact hpc
    · simp at hi
  case mem =>
    have hstore : ∀ g, i ≠ .store g := by rintro g rfl; simp at hi
    rw [exec_keeps_mem i s t hstore h]
  case cell => exact fun addr ha b hb => exec_store_getByte_outside f s t addr h ha b hb
  case noAddress => exact fun k hk b => by rw [exec_store_keeps_mem_of_error f s t k h hk]

/-- Settles O48: a step that runs no STORE keeps memory. -/
theorem onlyStoreChangesMemory : Obligations.OnlyStoreChangesMemory := by
  intro s t h hstore b
  rw [step_keeps_mem s t h fun _ => hstore]

end Sys2Proof.Machine
end

/-! # Proofs about the control (45_control.md)

What a failed check raises, JUMP with a target, past the end and without a target, and HALT; then each obligation. -/

section
namespace Sys2Proof.Machine

open Sys2Proof

/-! ### The kinds of the checks' faults -/

/-- A failed check raises InvalidRegister or InvalidAddressingMode. -/
theorem State.validate_error_kind (s : State) (f : Fields) (k : FaultKind) (h : s.validate f = .error k) :
    k = .invalidRegister ∨ k = .invalidAddressingMode := by
  rcases s.validate_error_cases f k h with ⟨-, hk⟩ | ⟨-, -, hk⟩
  · exact .inl hk
  · exact .inr hk

/-- A check fails only for fields that are not well-formed. -/
theorem State.not_wellFormed_of_validate_error (s : State) (f : Fields) (k : FaultKind)
    (h : s.validate f = .error k) : ¬ f.wellFormed s.regs.length = true := by
  intro hf
  rw [(s.validate_ok_iff f).mpr hf] at h
  cases h

/-! ### JUMP (rule R170) -/

/-- A JUMP whose target resolves moves it to `pc`. -/
theorem exec_jump_of_target (f : Fields) (s : State) (target : Word) (h : s.oneOperand f target) :
    exec (.jump f) s = .next (s.setPc target).forceZeroReg := by
  obtain ⟨hf, htarget⟩ := h
  simp only [exec, execJump]
  rw [s.validate_bind f _ hf, htarget]
  rfl

/-- The cycle after a JUMP on a Running core to a target past the end of memory halts. -/
theorem step_of_target_past_end (s : State) (target : Word) (hr : s.runState = .running)
    (hpast : s.memWords ≤ target.toNat) :
    step (s.setPc target).forceZeroReg = .next (s.setPc target).forceZeroReg.stop :=
  step_of_end_of_memory _ (by simpa using hr) (by simpa using hpast)

/-- A JUMP that has no target takes a fault: OutOfBounds for well-formed fields, else that of the failed check. -/
theorem exec_jump_of_no_target (f : Fields) (s : State) (h : ∀ target, ¬ s.oneOperand f target) :
    ∃ k, exec (.jump f) s = .next (s.raise k) ∧
      if f.wellFormed s.regs.length = true then k = .outOfBounds
      else k = .invalidRegister ∨ k = .invalidAddressingMode := by
  obtain ⟨t, ht⟩ := exec_has_next (.jump f) s
  rcases execJump_cases f s t ht with ⟨k, rfl, hcheck | ⟨hf, hk⟩⟩ | ⟨target, hf, htarget, -⟩
  · refine ⟨k, ht, ?_⟩
    rw [if_neg (s.not_wellFormed_of_validate_error f k hcheck)]
    exact s.validate_error_kind f k hcheck
  · refine ⟨k, ht, ?_⟩
    rw [if_pos hf]
    exact hk
  · exact absurd ⟨hf, htarget⟩ (h target)

/-! ### HALT (rule R171) -/

/-- A HALT whose fields pass the checks ends the run. -/
theorem exec_halt_of_wellFormed (f : Fields) (s : State) (hf : f.wellFormed s.regs.length = true) :
    exec (.halt f) s = .next s.stop.forceZeroReg := by
  simp only [exec, execHalt]
  rw [s.validate_bind f _ hf]
  rfl

/-! ### The obligations -/

/-- Settles O34: the opcode field of its word, a JUMP that has a target with the cycle after it, and one that has
none. -/
theorem jumpResult : Obligations.JumpResult := by
  refine fun f s => ⟨Laws.OpcodeField.jump f, fun target h => ⟨?jumps, ?haltsPastEnd⟩, fun h => ?faults⟩
  case jumps => exact exec_jump_of_target f s target h
  case haltsPastEnd => exact step_of_target_past_end s target
  case faults =>
    obtain ⟨k, hnext, hk⟩ := exec_jump_of_no_target f s h
    exact ⟨s.raise k, hnext, rfl, rfl, ⟨k, s.pc⟩, rfl, hk⟩

/-- Settles O35: the checks are all that can fail in a HALT. -/
theorem haltResult : Obligations.HaltResult := exec_halt_of_wellFormed

end Sys2Proof.Machine
end

/-! # Proofs about the exceptions (60_exceptions.md)

The step in each run state, and what Program load answers in Ready; then each obligation. -/

section
namespace Sys2Proof.Machine

open Sys2Proof

/-! ### The step in each run state (section 4) -/

/-- A step of a Ready machine enters the run. -/
theorem step_of_ready (s : State) (h : s.runState = .ready) : step s = .next s.enterRunning := by
  simp only [step, advance, h]

/-- A Halted machine has no step. -/
theorem step_of_halted (s : State) (h : s.runState = .halted) : step s = .fault .runHalted := by
  simp only [step, advance, h]

/-- A Running core has a next state, at the end of memory and below it, whatever word it fetches there. -/
theorem step_has_next_of_running (s : State) (h : s.runState = .running) : ∃ t, step s = .next t := by
  rcases Nat.lt_or_ge s.pc.toNat s.memWords with hbelow | hend
  · obtain ⟨t, ht, -⟩ := step_ir_of_fetches s ⟨h, hbelow⟩
    exact ⟨t, ht⟩
  · exact ⟨s.stop, step_of_end_of_memory s h hend⟩

/-- A step has a next state or is a fault, in every run state. -/
theorem step_has_next_or_faults (s : State) : (∃ t, step s = .next t) ∨ ∃ r, step s = .fault r := by
  cases h : s.runState with
  | ready => exact .inl ⟨_, step_of_ready s h⟩
  | running => exact .inl (step_has_next_of_running s h)
  | halted => exact .inr ⟨_, step_of_halted s h⟩
  | faulted => exact .inr ⟨_, step_of_faulted s h⟩

/-! ### The load-time error (rule R187) -/

/-- In Ready, Program load answers ProgramTooLarge for an image that passes the end of memory, and for no other. -/
theorem State.load_eq_programTooLarge_iff (s : State) (ws : List Word) (start : Nat) (h : s.runState = .ready) :
    s.load ws start = .programTooLarge ↔ s.memWords < start + ws.length := by
  unfold State.load
  rw [if_neg (not_not_intro h)]
  split
  · next hlarge => exact iff_of_true rfl hlarge
  · next hfits => exact iff_of_false LoadResult.noConfusion hfits

/-- The fault record is empty or holds an execution-time kind, so never ProgramTooLarge. -/
theorem State.faultKind_ne_programTooLarge (s : State) : s.faultKind ≠ .programTooLarge := by
  unfold State.faultKind
  cases s.faultRecord with
  | none => exact ErrorKind.noConfusion
  | some r => exact ErrorKind.noConfusion

/-! ### The obligations -/

/-- Settles O17: a Running core has a next state, and a raise is the one way to Faulted; the two ended run states
have no step. -/
theorem outcomesOfAStep : Obligations.OutcomesOfAStep := by
  refine fun s => ⟨fun hr => ?running, step_of_halted s, step_of_faulted s⟩
  case running =>
    obtain ⟨t, ht⟩ := step_has_next_of_running s hr
    refine ⟨t, ht, ?_⟩
    rcases step_starts_raises_or_keeps_record s t ht with ⟨-, rfl⟩ | ⟨-, u, k, rfl⟩ | ⟨-, hgoes, -⟩
    · exact .inl rfl
    · exact .inr (.inr ⟨rfl, ⟨k, u.pc⟩, rfl, rfl⟩)
    · exact hgoes.imp_right .inl

/-- Settles O18: every instruction has a next state, and a step is a next state or a fault. -/
theorem nothingIsRefused : Obligations.NothingIsRefused := by
  refine ⟨exec_has_next, fun s r hrefused => ?_⟩
  rcases step_has_next_or_faults s with ⟨t, ht⟩ | ⟨k, hk⟩
  · cases ht.symm.trans hrefused
  · cases hk.symm.trans hrefused

/-- Settles O41: the image's end decides the answer, and no record holds the load-time kind. -/
theorem programTooLargeChangesNothing : Obligations.ProgramTooLargeChangesNothing := fun s ws start h =>
  ⟨(s.load_eq_programTooLarge_iff ws start h).symm, State.faultKind_ne_programTooLarge⟩

end Sys2Proof.Machine
end

/-! # Proofs about reset and the host operations (70_reset_and_hazards.md)

What Program load, Run and Inspection answer in each case, and what Program load does to the invariant; then each
obligation. -/

section
namespace Sys2Proof.Machine

open Sys2Proof

/-! ### Program load (rules R213 and R217) -/

/-- In Ready, Program load of an image that fits answers the state with the image and `pc` written. -/
theorem State.load_of_fits (s : State) (ws : List Word) (start : Nat) (hr : s.runState = .ready)
    (hfit : start + ws.length ≤ s.memWords) :
    s.load ws start = .loaded { s with mem := s.mem.setCells start ws, pc := BitVec.ofNat 32 start } := by
  unfold State.load
  rw [if_neg (not_not_intro hr), if_neg (Nat.not_lt.mpr hfit)]

/-- Outside Ready, Program load is refused. -/
theorem State.load_of_not_ready (s : State) (ws : List Word) (start : Nat) (hr : s.runState ≠ .ready) :
    s.load ws start = .refused .hostOperationNotReady := if_pos hr

/-- Program load keeps the invariant: the image lies within the cells, and in Ready no record names `pc`. -/
theorem State.Inv.load {s t : State} (h : s.Inv) {ws : List Word} {start : Nat}
    (ht : s.load ws start = .loaded t) : t.Inv := by
  obtain ⟨hr, hfit, rfl⟩ := s.load_cases t ws start ht
  have hbut : s.InvButZeroReg := h.butZeroReg (by simp [hr])
  refine State.InvButZeroReg.inv ?_ h.zero_reg_reads_zero
  exact
    { config_legal := hbut.config_legal
      mem_wf := s.mem.setCells_wf ws start hbut.mem_wf
      mem_bounded := s.mem.setCells_bounded ws start s.memWords hfit hbut.mem_bounded
      no_record := hbut.no_record
      not_faulted := hbut.not_faulted }

/-! ### Run (rules R214 and R217) -/

/-- In Ready, Run enters the run. -/
theorem State.startRun_of_ready (s : State) (hr : s.runState = .ready) : s.startRun = .ok s.enterRunning :=
  if_pos hr

/-- Outside Ready, Run is refused. -/
theorem State.startRun_of_not_ready (s : State) (hr : s.runState ≠ .ready) :
    s.startRun = .error .hostOperationNotReady := if_neg hr

/-! ### Inspection (rule R216) -/

/-- Inspection of a range in memory answers a snapshot of the state and the cells of the range in order. -/
theorem State.inspect_of_fits (s : State) (first len : Nat) (hfit : first + len ≤ s.memWords) :
    s.inspect first len = .ok
      { regs := s.regs, flags := s.flags, pc := s.pc, sp := s.sp, ir := s.ir, runState := s.runState
        faultRecord := s.faultRecord, cells := (List.range len).map fun i => s.mem.getCell (first + i) } :=
  if_neg (Nat.not_lt.mpr hfit)

/-- Inspection of a range that passes the end of memory is refused. -/
theorem State.inspect_past_end (s : State) (first len : Nat) (hpast : s.memWords < first + len) :
    s.inspect first len = .error .inspectionPastEnd := if_pos hpast

/-! ### The obligations -/

/-- Settles O42: the load writes the image and `pc`, whose 32 bits hold every address up to the capacity. -/
theorem programLoadCopiesTheImage : Obligations.ProgramLoadCopiesTheImage := by
  intro s ws start hr hfit hcap
  have hstart : start < 2 ^ 32 := by omega
  refine ⟨_, s.load_of_fits ws start hr hfit, rfl, ?pc, ?image, ?frame⟩
  case pc => rw [BitVec.toNat_ofNat, Nat.mod_eq_of_lt hstart]
  case image => exact fun j w hw => Memory.getCell_setCells ws s.mem start j w hw
  case frame => exact fun b hb => Memory.getByte_setCells_outside ws s.mem start b hb

/-- Settles O43: the refusals outside Ready, then the two answers of Inspection. -/
theorem hostOperationsByRunState : Obligations.HostOperationsByRunState := by
  refine ⟨fun s ws start hr => ⟨s.load_of_not_ready ws start hr, s.startRun_of_not_ready hr⟩,
    fun s first len => ⟨fun hfit => ?_, s.inspect_past_end first len⟩⟩
  refine ⟨_, s.inspect_of_fits first len hfit, rfl, rfl, rfl, rfl, rfl, rfl, rfl, ?length, fun j hj => ?cell⟩
  case length => rw [List.length_map, List.length_range]
  case cell => rw [List.getElem?_map, List.getElem?_range hj, Option.map_some]

/-- Settles O46: the clauses but the zero register's go through the load, which writes no register. -/
theorem programLoadKeepsInvariant : Obligations.ProgramLoadKeepsInvariant := fun _ _ _ _ h ht => h.load ht

/-- Settles O16: the step and the host's Run both enter the run. -/
theorem stepInReadyStartsRun : Obligations.StepInReadyStartsRun := fun s hr =>
  ⟨step_of_ready s hr, s.startRun_of_ready hr⟩

end Sys2Proof.Machine
end

/-! # Proofs about the test vectors (95_test_vectors.md)

The vectors' words are written by the encoder's rule, so each is checked as the word of its instruction.
-/

section
namespace Sys2Proof.Machine

open Sys2Proof

/-- A word decodes to an instruction exactly when it is that instruction's word. -/
theorem decode_eq_ok_iff_encode_eq (w : Word) (i : Instr) : decode w = .ok i ↔ encode i = w :=
  ⟨encode_of_decode w i, fun h => h ▸ decode_encode i⟩

/-! ### The obligation -/

/-- Settles O4: each word is the sum of its instruction's shifted fields, which the decoder inverts. -/
theorem specWordsDecodeAsRead : Obligations.SpecWordsDecodeAsRead := by
  simp only [Obligations.SpecWordsDecodeAsRead, decode_eq_ok_iff_encode_eq]
  decide

end Sys2Proof.Machine
end
